-- ==== Sys2Proof/Word.lean ====
section
/-! DEFINITION. The fixed widths of 00_scope R6: a command word is 24 bits, STATUS 16, a frame 8,
a pin identifier 4. -/

namespace Sys2Proof

/-- A 24-bit command word, as the host writes it to CMD (30_encoding R73). -/
abbrev Word := BitVec 24

/-- A frame: "an 8-bit value transferred most-significant-bit first" (00_scope R18). -/
abbrev Byte := BitVec 8

/-- A pin identifier, 0 to 15; every value is legal (20_memory R51). -/
abbrev Pin := BitVec 4

/-- The 16-bit value a host reads from STATUS (10_state R32). -/
abbrev StatusWord := BitVec 16

end Sys2Proof
end

