-- ==== Sys2Proof/Config.lean ====
section
/-! DEFINITION. The parameters of 00_scope R7 and the environment's free value.

`P_STRETCH_LIMIT` is a value of the type below, held in State so that both variants are covered
(log 6); the other parameters (log 19) and the free draw are opaque: nothing in Lean can evaluate
them. -/

namespace Sys2Proof

/-- P_STRETCH_LIMIT: `NONE`, or a number N >= 1 of consecutive low reads (00_scope R7,
40_line_driver R108). That N is at least 1 is `StretchLimit.valid`. -/
inductive StretchLimit where
  | unbounded
  | bounded (n : Nat)
  deriving DecidableEq, Repr

/-- The two implementations of the line capability (00_scope R8). No rule depends on which. -/
inductive GpioVariant where
  | rawPortLine
  | platformApiLine
  deriving DecidableEq, Repr, Inhabited

namespace Config

/-- P_T_HALF_US, the duration of every WAIT in microseconds (00_scope R9). OPEN: only timing
statements read it. -/
opaque tHalfUs : Nat

/-- P_GPIO_VARIANT (00_scope R8). OPEN; no rule depends on it. -/
opaque gpioVariant : GpioVariant

/-- P_PIN_MAP, from a pin identifier to a platform pin (20_memory R51). OPEN; no rule of the
sequencer reads it. -/
opaque pinMap : Pin → Nat

/-- The n-th draw of the environment that State lists no answer for (20_memory R53): a free value,
log 4. `true` and `false` mean what `levelOf` says. -/
opaque freeDraw : Nat → Bool

end Config

end Sys2Proof
end

