-- ==== Sys2Proof/Syntax.lean ====
section
/-! DEFINITION. The commands of MWSEQ command set 1: one constructor per row of
spec/opcode_table.json (30_encoding R76). Every command carries its two pin identifiers
(10_state R42). -/

namespace Sys2Proof

/-- A command. `sda` and `scl` are the two nibbles of its handle; `d` is the byte a WRITE sends;
`a` is a READ's A bit, true to send ACK. -/
inductive Instr where
  | init (sda scl : Pin)
  | start (sda scl : Pin)
  | stop (sda scl : Pin)
  | write (sda scl : Pin) (d : Byte)
  | read (sda scl : Pin) (a : Bool)
  deriving DecidableEq, Repr

end Sys2Proof
end

