-- ==== Sys2Proof/WellFormed.lean ====
section
/-! DEFINITION. Operand legality, 30_encoding R77, as four checks over the fields of a command word,
and the same checks over the fields of a command. The decoder does not use them: that it accepts
exactly the legal words is a statement. -/

namespace Sys2Proof

/-- "OP is one of 0x1 to 0x5" (R77). -/
def opDefined (op : BitVec 4) : Bool := decide (1 ≤ op.toNat ∧ op.toNat ≤ 5)

/-- "RSV = 0b000" (R77). -/
def rsvClear (rsv : BitVec 3) : Bool := rsv == 0

/-- "A = 0 unless OP = 0x5" (R77). -/
def ackAllowed (op : BitVec 4) (a : Bool) : Bool := !a || op == 5

/-- "D = 0x00 unless OP = 0x4" (R77). -/
def dataAllowed (op : BitVec 4) (d : Byte) : Bool := d == 0 || op == 4

/-- A command word is legal exactly when all four hold (R77). SDA and SCL take every value. -/
def fieldsLegal (op : BitVec 4) (rsv : BitVec 3) (a : Bool) (d : Byte) : Bool :=
  opDefined op && rsvClear rsv && ackAllowed op a && dataAllowed op d

/-- The OP field of a command (R76). -/
def Instr.opcode : Instr → BitVec 4
  | .init _ _ => 1
  | .start _ _ => 2
  | .stop _ _ => 3
  | .write _ _ _ => 4
  | .read _ _ _ => 5

/-- The A field of a command (R76). -/
def Instr.ackBit : Instr → Bool
  | .init _ _ => false
  | .start _ _ => false
  | .stop _ _ => false
  | .write _ _ _ => false
  | .read _ _ a => a

/-- The D field of a command (R76). -/
def Instr.dataByte : Instr → Byte
  | .init _ _ => 0
  | .start _ _ => 0
  | .stop _ _ => 0
  | .write _ _ d => d
  | .read _ _ _ => 0

/-- The data line's pin identifier. -/
def Instr.sda : Instr → Pin
  | .init p _ => p
  | .start p _ => p
  | .stop p _ => p
  | .write p _ _ => p
  | .read p _ _ => p

/-- The clock line's pin identifier. -/
def Instr.scl : Instr → Pin
  | .init _ q => q
  | .start _ q => q
  | .stop _ q => q
  | .write _ q _ => q
  | .read _ q _ => q

/-- A command is well formed when its fields are legal with RSV = 0. Since the operands are held at
the width of their fields, every command is (Laws/Decode.lean proves it): the set has no operand
value that its encoding does not admit (R77, "SDA and SCL take every value in every command"). -/
def Instr.wellFormed (i : Instr) : Bool := fieldsLegal i.opcode 0 i.ackBit i.dataByte

end Sys2Proof
end

