-- ==== Sys2Proof/Decode.lean ====
section
/-! DEFINITION. The bus handle and the command word: field extraction, decoder, encoder
(30_encoding.md). -/

namespace Sys2Proof

/-! ### The bus handle (R70 to R72) -/

/-- `encode(sda, scl)` of R70: "packs `(sda & 0xF) << 4 | (scl & 0xF)`". The inputs are the host's
signed integers; the low 4 bits of a negative one are those of its two's complement
(PRESUMED, log 16). -/
def encodeHandle (sda scl : Int) : Byte :=
  ((BitVec.ofInt 8 sda &&& 0x0F#8) <<< 4) ||| (BitVec.ofInt 8 scl &&& 0x0F#8)

/-- `sdaOf(h) = h[7:4]` (R71). -/
def sdaOf (h : Byte) : Pin := h.extractLsb' 4 4

/-- `sclOf(h) = h[3:0]` (R71). -/
def sclOf (h : Byte) : Pin := h.extractLsb' 0 4

/-! ### The fields of a command word (R73, R74) -/

/-- `SDA = w[23:20]`. -/
def sdaField (w : Word) : Pin := w.extractLsb' 20 4

/-- `SCL = w[19:16]`. -/
def sclField (w : Word) : Pin := w.extractLsb' 16 4

/-- `OP = w[15:12]`. -/
def opField (w : Word) : BitVec 4 := w.extractLsb' 12 4

/-- `RSV = w[11:9]`. -/
def rsvField (w : Word) : BitVec 3 := w.extractLsb' 9 3

/-- `A = w[8]`, used as a boolean. -/
def ackField (w : Word) : Bool := w.getLsbD 8

/-- `D = w[7:0]`, used unchanged. -/
def dataField (w : Word) : Byte := w.extractLsb' 0 8

/-- Bits 23:16 of a command word are a bus handle (R75). -/
def handleField (w : Word) : Byte := w.extractLsb' 16 8

/-- Legality of a whole word (R77). -/
def legalWord (w : Word) : Bool :=
  fieldsLegal (opField w) (rsvField w) (ackField w) (dataField w)

/-! ### The decoder (R77, R78, R81) -/

/-- Why a word is illegal, the four grounds of R78. The machine does not record which one
(60_exceptions R202); where several hold, the order tested is the model's (log 13). -/
inductive DecodeError where
  | reservedOpcode
  | reservedBitsSet
  | ackBitOutsideRead
  | dataOutsideWrite
  deriving DecidableEq, Repr

/-- A word of INIT, START or STOP has A = 0 and D = 0x00 (R77). -/
def decodeBare (w : Word) (i : Instr) : Except DecodeError Instr :=
  if ackField w then .error .ackBitOutsideRead
  else if dataField w = 0 then .ok i
  else .error .dataOutsideWrite

/-- A word of WRITE has A = 0 and any D (R77). -/
def decodeWrite (w : Word) : Except DecodeError Instr :=
  if ackField w then .error .ackBitOutsideRead
  else .ok (.write (sdaField w) (sclField w) (dataField w))

/-- A word of READ has any A and D = 0x00 (R77). -/
def decodeRead (w : Word) : Except DecodeError Instr :=
  if dataField w = 0 then .ok (.read (sdaField w) (sclField w) (ackField w))
  else .error .dataOutsideWrite

/-- The decoder: every 24-bit word is one command or is rejected by name (R81). -/
def decode (w : Word) : Except DecodeError Instr :=
  if rsvField w = 0 then
    match (opField w).toNat with
    | 1 => decodeBare w (.init (sdaField w) (sclField w))
    | 2 => decodeBare w (.start (sdaField w) (sclField w))
    | 3 => decodeBare w (.stop (sdaField w) (sclField w))
    | 4 => decodeWrite w
    | 5 => decodeRead w
    | _ => .error .reservedOpcode
  else .error .reservedBitsSet

/-! ### The encoder (R73, R76) -/

/-- `{SDA, SCL, OP, 0b000, A, D}`, SDA in the most significant bits (R73). -/
def commandWord (sda scl : Pin) (op : BitVec 4) (a : Bool) (d : Byte) : Word :=
  sda ++ scl ++ op ++ 0#3 ++ BitVec.ofBool a ++ d

/-- The word of a command (R76). -/
def encode : Instr → Word
  | .init sda scl => commandWord sda scl 1 false 0
  | .start sda scl => commandWord sda scl 2 false 0
  | .stop sda scl => commandWord sda scl 3 false 0
  | .write sda scl d => commandWord sda scl 4 false d
  | .read sda scl a => commandWord sda scl 5 a 0

/-! ### The match and mask table (R77) -/

/-- One row of the table of R77. -/
structure OpcodeRow where
  mnemonic : String
  pattern : Word
  mask : Word
  deriving DecidableEq, Repr

/-- A word matches a row when its bits under the mask are the row's. -/
def OpcodeRow.covers (r : OpcodeRow) (w : Word) : Bool := w &&& r.mask == r.pattern

/-- The five rows of R77, in the table's order. -/
def opcodeTable : List OpcodeRow :=
  [⟨"INIT", 0x001000, 0x00FFFF⟩,
   ⟨"START", 0x002000, 0x00FFFF⟩,
   ⟨"STOP", 0x003000, 0x00FFFF⟩,
   ⟨"WRITE", 0x004000, 0x00FF00⟩,
   ⟨"READ", 0x005000, 0x00FEFF⟩]

/-- The mnemonic of a command, as the table spells it. -/
def Instr.mnemonic : Instr → String
  | .init _ _ => "INIT"
  | .start _ _ => "START"
  | .stop _ _ => "STOP"
  | .write _ _ _ => "WRITE"
  | .read _ _ _ => "READ"

/-! ### The host's entry -/

/-- The low `nbits` bits of `w` as a command word; a command has no bits above them, and those are
zero (log 17). -/
def tableWord (nbits w : Nat) : Word := BitVec.ofNat 24 (w % 2 ^ nbits)

/-- The command the decoder reads from a table row's bits. Command words are transferred whole, so
there is no byte order to undo (20_memory R56). -/
def decodeTableWord (nbits w : Nat) : Option Instr := (decode (tableWord nbits w)).toOption

end Sys2Proof
end

