-- ==== Sys2Proof/Machine/State.lean ====
section
/-! DEFINITION. The state of MWSEQ as plain data (10_state.md), its reset value, and the reasons a
step can stop. -/

namespace Sys2Proof.Machine

/-- The driver mode of a pin (10_state R20 to R22). No mode drives a line high. -/
inductive PinMode where
  /-- Input with pull-up: floats high unless another device pulls it low (R21). -/
  | released
  /-- Output low (R21). -/
  | drivenLow
  /-- Not written since reset; only reset sets it (R22). -/
  | unknown
  deriving DecidableEq, Repr

/-- A line level (00_scope R11). -/
inductive Level where
  | low
  | high
  deriving DecidableEq, Repr

/-- STATUS.PHASE, the observational transaction state (10_state R33). -/
inductive Phase where
  | idle
  | started
  | addressPhase
  | dataPhase
  deriving DecidableEq, Repr

/-- STATUS.ST (10_state R37). The code 0b11 is never written and has no constructor. -/
inductive St where
  | ok
  | timeout
  | illegal
  deriving DecidableEq, Repr

/-- The fields of STATUS (10_state R32). Bits 15:14 always read 0 and hold nothing; the word the
host reads is `statusWord` (log 11). -/
structure Status where
  phase : Phase
  busy : Bool
  st : St
  ack : Bool
  data : Byte
  deriving DecidableEq, Repr

/-- The events of the record (20_memory R65). -/
inductive Event where
  | accept (w : Word)
  | refuse (w : Word)
  | mode (p : Pin) (m : PinMode)
  | sample (p : Pin) (v : Level)
  | wait
  | complete (st : St) (ack : Bool) (data : Byte)
  | abort (st : St)
  deriving DecidableEq, Repr

/-- The two lines a command names, resolved to pins from CUR (00_scope R15). -/
inductive Line where
  | sda
  | scl
  deriving DecidableEq, Repr

/-- The micro-operations (40_line_driver R116: "The set is closed"). -/
inductive MicroOp where
  | rel (l : Line)
  | drv (l : Line)
  | await (l : Line)
  | wait
  | putbit
  | shift
  | sampleAck
  | sampleBit
  | putack
  deriving DecidableEq, Repr

/-- One turn of the agents other than the sequencer, in the one total order of 20_memory R61
(log 1). -/
inductive HostAction where
  /-- `WriteCMD(w)` (10_state R44). -/
  | writeCmd (w : Word)
  /-- `ReadSTATUS()` (10_state R45). -/
  | readStatus
  /-- The host takes no action: the sequencer moves, if BUSY = 1. -/
  | pass
  /-- The host waits until BUSY = 0 (70_reset R235): the sequencer moves while BUSY = 1. -/
  | waitIdle
  /-- The external reset (70_reset R230). -/
  | reset
  deriving DecidableEq, Repr

/-- The machine's state, and the plain data of the agents beside it. -/
structure State where
  /-- PIN_MODE[p], p = 0 to 15 (10_state R20). -/
  pinMode : Vector PinMode 16
  /-- CUR, the command word being executed (R25). -/
  cur : Word
  /-- UPC, the micro-step pointer (R26). -/
  upc : BitVec 7
  /-- SHREG, the shift register of a WRITE (R27). -/
  shreg : Byte
  /-- ACC, the accumulator of a READ (R28). -/
  acc : Byte
  /-- ACKS, the acknowledge a WRITE sampled (R29). -/
  acks : Bool
  /-- POLLS, the consecutive low reads of the AWAIT in progress (R30). -/
  polls : Nat
  /-- STATUS (R32). -/
  status : Status
  /-- P_STRETCH_LIMIT; no step changes it (70_reset R233, log 6). -/
  stretchLimit : StretchLimit
  /-- The host's coming actions, the next one first (log 1). -/
  host : List HostAction
  /-- What ReadSTATUS returned, oldest first (10_state R45, log 10). -/
  statusReads : List StatusWord
  /-- The environment's coming answers, the next one first (20_memory R53, log 4). -/
  draws : List Bool
  /-- The next free draw once `draws` is empty (log 4). -/
  drawCount : Nat
  /-- The event record, oldest first (20_memory R65). -/
  events : List Event
  deriving DecidableEq, Repr

/-- The reasons a step can stop with a fault. Both stand for states that no run reaches
(`State.Inv` of Safety.lean rules them out): no rule gives a step there. Log 8. -/
inductive Fault where
  /-- Raised by the sequencer's turn when BUSY = 1 and CUR is no legal word. Safe. -/
  | illegalCur
  /-- Raised by a command's step when BUSY = 1 and UPC is past the end of its sequence. Safe. -/
  | upcOutOfSequence
  deriving DecidableEq, Repr

/-- The reasons a step can be refused. -/
inductive Refusal where
  /-- Raised by exec's arm of an instruction that has no meaning yet; no arm raises it. Safe. -/
  | notModelled (mnemonic : String)
  /-- Raised by a write of CMD while BUSY = 1: "the model records a refusal and gives the run no
  meaning from that point" (10_state R44). Safe. -/
  | cmdWhileBusy
  deriving DecidableEq, Repr

/-- STATUS after reset, 0x0000 (10_state R43). -/
def Status.reset : Status := ⟨.idle, false, .ok, false, 0⟩

/-- The machine right after reset (10_state R43). The other agents have nothing pending, and the
stretch limit is the spec's default, `NONE` (00_scope R7). -/
def State.reset : State where
  pinMode := Vector.replicate 16 .unknown
  cur := 0
  upc := 0
  shreg := 0
  acc := 0
  acks := false
  polls := 0
  status := Status.reset
  stretchLimit := .unbounded
  host := []
  statusReads := []
  draws := []
  drawCount := 0
  events := []

end Sys2Proof.Machine
end

