-- ==== Sys2Proof/Machine/Flags.lean ====
section
/-! DEFINITION. The fields of STATUS: codes, the word a host reads, and the value of each flag
(10_state R32 to R39). -/

namespace Sys2Proof.Machine

/-- The code of STATUS.PHASE (10_state R33). -/
def phaseCode : Phase → BitVec 2
  | .idle => 0b00
  | .started => 0b01
  | .addressPhase => 0b10
  | .dataPhase => 0b11

/-- The code of STATUS.ST (10_state R37). -/
def stCode : St → BitVec 2
  | .ok => 0b00
  | .timeout => 0b01
  | .illegal => 0b10

/-- `{0b00, PHASE, BUSY, ST, ACK, DATA}`, the value a read of STATUS returns (10_state R32). -/
def statusWord (x : Status) : StatusWord :=
  0#2 ++ phaseCode x.phase ++ BitVec.ofBool x.busy ++ stCode x.st ++ BitVec.ofBool x.ack ++ x.data

/-- PHASE after an INIT: Idle from every phase (10_state R34). -/
def phaseAfterInit : Phase → Phase
  | .idle => .idle
  | .started => .idle
  | .addressPhase => .idle
  | .dataPhase => .idle

/-- PHASE after a START: Started from every phase (10_state R34). -/
def phaseAfterStart : Phase → Phase
  | .idle => .started
  | .started => .started
  | .addressPhase => .started
  | .dataPhase => .started

/-- PHASE after a STOP: Idle from every phase (10_state R34). -/
def phaseAfterStop : Phase → Phase
  | .idle => .idle
  | .started => .idle
  | .addressPhase => .idle
  | .dataPhase => .idle

/-- PHASE after a WRITE (10_state R34). -/
def phaseAfterWrite : Phase → Phase
  | .idle => .idle
  | .started => .addressPhase
  | .addressPhase => .dataPhase
  | .dataPhase => .dataPhase

/-- PHASE after a READ (10_state R34). -/
def phaseAfterRead : Phase → Phase
  | .idle => .idle
  | .started => .dataPhase
  | .addressPhase => .dataPhase
  | .dataPhase => .dataPhase

/-- "low means ACK, high means NACK" (10_state R29). -/
def ackOfLevel : Level → Bool
  | .low => true
  | .high => false

/-- The timeout test of an AWAIT: `P_STRETCH_LIMIT = N and POLLS = N` (40_line_driver R106). -/
def limitReached (l : StretchLimit) (polls : Nat) : Bool :=
  match l with
  | .unbounded => false
  | .bounded n => polls == n

end Sys2Proof.Machine
end

