-- ==== Sys2Proof/Machine/Operands.lean ====
section
/-! DEFINITION. The operands of a micro-operation, resolved from CUR and SHREG (10_state R25), and
access to the pin-driver file (10_state R20). -/

namespace Sys2Proof.Machine

/-- The pin a line name stands for in a command word (00_scope R15, 30_encoding R74). -/
def linePin (w : Word) : Line → Pin
  | .sda => sdaField w
  | .scl => sclField w

/-- The driver mode a bit value asks of SDA: "drive low for 0, release for 1" (40_line_driver R111). -/
def modeOfBit (b : Bool) : PinMode := if b then .released else .drivenLow

/-- The driver mode of a READ's acknowledge: low for ACK, released for NACK (40_line_driver R115). -/
def modeOfAck (a : Bool) : PinMode := if a then .drivenLow else .released

/-- `SHREG[7]`, the bit a WRITE puts on SDA next (10_state R27). -/
def currentBit (s : State) : Bool := s.shreg.getLsbD 7

/-- `(SHREG << 1)[7:0]` (40_line_driver R112). -/
def shiftLeft (v : Byte) : Byte := v <<< 1

/-- A sampled level as a bit: high = 1, low = 0 (40_line_driver R103). -/
def levelBit : Level → Byte
  | .low => 0
  | .high => 1

/-- `((ACC << 1) | v)[7:0]` (40_line_driver R114). -/
def shiftIn (acc : Byte) (v : Level) : Byte := shiftLeft acc ||| levelBit v

/-- `PIN_MODE[p]`. -/
def State.mode (s : State) (p : Pin) : PinMode := s.pinMode[p.toNat]'p.isLt

/-- `PIN_MODE[p] <- m`. -/
def State.setMode (s : State) (p : Pin) (m : PinMode) : State :=
  { s with pinMode := s.pinMode.set p.toNat m p.isLt }

/-- `levelOf m d`: the level of a line in driver mode `m`, `d` being the environment's draw
(20_memory R52). On a Released line `d` is `ext`, true when another device pulls it low; on an
Unknown line `d` is the level itself, unconstrained (log 5). -/
def levelOf : PinMode → Bool → Level
  | .drivenLow, _ => .low
  | .released, d => if d then .low else .high
  | .unknown, d => if d then .high else .low

end Sys2Proof.Machine
end

