-- ==== Sys2Proof/Machine/Ops.lean ====
section
/-! DEFINITION. The operations the commands share: line access, the micro-operations
(40_line_driver.md), acceptance, completion, and ending a command with a status (60_exceptions.md). -/

namespace Sys2Proof.Machine

/-- Append an event to the record (20_memory R65). -/
def State.record (s : State) (e : Event) : State := { s with events := s.events ++ [e] }

/-! ### Line access -/

/-- `SetMode(p, m)`: one atomic write of one driver mode, recorded even when it changes nothing
(20_memory R57, R65, log 12). -/
def setModeOp (p : Pin) (m : PinMode) (s : State) : State := (s.setMode p m).record (.mode p m)

/-- The environment's next draw: the next answer listed, or the next free value (20_memory R53). -/
def nextDraw (s : State) : Bool := s.draws.headD (Config.freeDraw s.drawCount)

/-- The state once that draw is spent: "Each `LineRead` takes a new draw" (20_memory R53). -/
def spendDraw (s : State) : State :=
  { s with
    draws := s.draws.tail
    drawCount := if s.draws.isEmpty then s.drawCount + 1 else s.drawCount }

/-- `Level(p)` (20_memory R52), under the environment's next draw. -/
def readLevel (p : Pin) (s : State) : Level := levelOf (s.mode p) (nextDraw s)

/-- What a read of pin `p` takes from the environment. A DrivenLow line reads low whatever other
devices do, and takes no draw (log 5). -/
def spendForRead (p : Pin) (s : State) : State :=
  match s.mode p with
  | .drivenLow => s
  | .released => spendDraw s
  | .unknown => spendDraw s

/-- `LineRead(line)`, the level returned (40_line_driver R103). -/
def lineRead (l : Line) (s : State) : Level := readLevel (linePin s.cur l) s

/-- The state after `LineRead(line)`: the sample is recorded, and the draw spent. Nothing of the
machine changes (20_memory R59). -/
def afterLineRead (l : Line) (s : State) : State :=
  (spendForRead (linePin s.cur l) s).record (.sample (linePin s.cur l) (lineRead l s))

/-! ### The micro-operations -/

/-- How a micro-operation ends (40_line_driver R100, R106): it is done and UPC advances, it holds
and UPC stays, or it reached the stretch limit. -/
inductive MicroResult where
  | done (s : State)
  | hold (s : State)
  | limit (s : State)
  deriving DecidableEq, Repr

/-- `REL(line)` (R101). -/
def microRel (l : Line) (s : State) : State := setModeOp (linePin s.cur l) .released s

/-- `DRV(line)` (R102). -/
def microDrv (l : Line) (s : State) : State := setModeOp (linePin s.cur l) .drivenLow s

/-- The outcome of one poll that read `v` (R106). -/
def pollResult (v : Level) (s : State) : MicroResult :=
  match v with
  | .high => .done { s with polls := 0 }
  | .low =>
    if limitReached s.stretchLimit (s.polls + 1) then .limit { s with polls := s.polls + 1 }
    else .hold { s with polls := s.polls + 1 }

/-- `AWAIT(line)` (R106): one poll. -/
def microAwait (l : Line) (s : State) : MicroResult := pollResult (lineRead l s) (afterLineRead l s)

/-- `WAIT` (R110): only the event. -/
def microWait (s : State) : State := s.record .wait

/-- `PUTBIT` (R111). -/
def microPutbit (s : State) : State :=
  setModeOp (linePin s.cur .sda) (modeOfBit (currentBit s)) s

/-- `SHIFT` (R112). -/
def microShift (s : State) : State := { s with shreg := shiftLeft s.shreg }

/-- `SAMPLE_ACK` (R113). -/
def microSampleAck (s : State) : State :=
  { afterLineRead .sda s with acks := ackOfLevel (lineRead .sda s) }

/-- `SAMPLE_BIT` (R114). -/
def microSampleBit (s : State) : State :=
  { afterLineRead .sda s with acc := shiftIn s.acc (lineRead .sda s) }

/-- `PUTACK` (R115), with `A = CUR[8]`. -/
def microPutack (s : State) : State :=
  setModeOp (linePin s.cur .sda) (modeOfAck (ackField s.cur)) s

/-- One micro-operation (R101 to R115). -/
def execMicro (op : MicroOp) (s : State) : MicroResult :=
  match op with
  | .rel l => .done (microRel l s)
  | .drv l => .done (microDrv l s)
  | .await l => microAwait l s
  | .wait => .done (microWait s)
  | .putbit => .done (microPutbit s)
  | .shift => .done (microShift s)
  | .sampleAck => .done (microSampleAck s)
  | .sampleBit => .done (microSampleBit s)
  | .putack => .done (microPutack s)

/-! ### Ending a command -/

/-- `raise` of 00_scope R14, the part ILLEGAL and TIMEOUT share: ST takes the code, ACK and DATA are
0, BUSY is 0, PHASE is unchanged (60_exceptions R202, R204). It transfers no control, and there is
nothing to return from (R200, R211). -/
def raiseStatus (code : St) (s : State) : State :=
  { s with status := { s.status with busy := false, st := code, ack := false, data := 0 } }

/-- `raise Illegal(w)` (60_exceptions R202). -/
def raiseIllegal (w : Word) (s : State) : State := (raiseStatus .illegal s).record (.refuse w)

/-- `raise Timeout(line)` (60_exceptions R204). -/
def raiseTimeout (s : State) : State :=
  { raiseStatus .timeout s with polls := 0 }.record (.abort .timeout)

/-- `complete(st, ack, data)`, with the phase the command gives (10_state R35). -/
def complete (st : St) (ack : Bool) (data : Byte) (phase : Phase) (s : State) : State :=
  { s with status := ⟨phase, false, st, ack, data⟩ }.record (.complete st ack data)

/-- Acceptance of a legal word, but for what a WRITE or a READ loads (30_encoding R80). -/
def accept (w : Word) (s : State) : State :=
  { s with
    cur := w, upc := 0, polls := 0, acks := false
    status := { s.status with busy := true } }.record (.accept w)

/-! ### One step of a command -/

/-- UPC <- UPC + 1, and completion in the same step when it reaches the end (40_line_driver R100). -/
def advance (len : Nat) (finish : State → State) (s : State) : State :=
  if s.upc.toNat + 1 = len then finish { s with upc := s.upc + 1 } else { s with upc := s.upc + 1 }

/-- The sequencer's step over a micro-sequence (40_line_driver R100, R106). -/
def microStep (ops : List MicroOp) (finish : State → State) (s : State) :
    Host.Outcome State Fault Refusal :=
  match ops[s.upc.toNat]? with
  | none => .fault .upcOutOfSequence
  | some op =>
    match execMicro op s with
    | .done t => .next (advance ops.length finish t)
    | .hold t => .next t
    | .limit t => .next (raiseTimeout t)

/-- One step of the command whose word is `w`: with BUSY = 0 its acceptance (`load` is what it loads
there), with BUSY = 1 and CUR = w the micro-operation at UPC. While another command runs it is
refused (10_state R44). Log 7. -/
def commandStep (w : Word) (load : State → State) (ops : List MicroOp) (finish : State → State)
    (s : State) : Host.Outcome State Fault Refusal :=
  if s.status.busy then
    if s.cur = w then microStep ops finish s else .refused .cmdWhileBusy
  else .next (accept w (load s))

end Sys2Proof.Machine
end

