-- ==== Sys2Proof/Machine/BusConditions.lean ====
section
/-! DEFINITION. INIT, START and STOP (41_bus_conditions.md): their micro-sequences and meanings. -/

namespace Sys2Proof.Machine

/-- INIT, length 2 (R131). SDA is released first (R132). -/
def initSequence : List MicroOp := [.rel .sda, .rel .scl]

/-- START, length 6 (R134). -/
def startSequence : List MicroOp :=
  [.rel .sda, .rel .scl, .await .scl, .wait, .drv .sda, .drv .scl]

/-- STOP, length 7 (R141). -/
def stopSequence : List MicroOp :=
  [.drv .scl, .drv .sda, .wait, .rel .scl, .await .scl, .wait, .rel .sda]

/-- `complete(OK, 0, 0x00)` of an INIT (10_state R35). -/
def finishInit (s : State) : State := complete .ok false 0 (phaseAfterInit s.status.phase) s

/-- `complete(OK, 0, 0x00)` of a START (10_state R35). -/
def finishStart (s : State) : State := complete .ok false 0 (phaseAfterStart s.status.phase) s

/-- `complete(OK, 0, 0x00)` of a STOP (10_state R35). -/
def finishStop (s : State) : State := complete .ok false 0 (phaseAfterStop s.status.phase) s

/-- One step of `INIT h` (R131). -/
def execInit (sda scl : Pin) (s : State) : Host.Outcome State Fault Refusal :=
  commandStep (encode (.init sda scl)) id initSequence finishInit s

/-- One step of `START h` (R134). -/
def execStart (sda scl : Pin) (s : State) : Host.Outcome State Fault Refusal :=
  commandStep (encode (.start sda scl)) id startSequence finishStart s

/-- One step of `STOP h` (R141). -/
def execStop (sda scl : Pin) (s : State) : Host.Outcome State Fault Refusal :=
  commandStep (encode (.stop sda scl)) id stopSequence finishStop s

end Sys2Proof.Machine
end

