-- ==== Sys2Proof/Machine/ByteTransfer.lean ====
section
/-! DEFINITION. WRITE and READ (42_byte_transfer.md): their micro-sequences and meanings. -/

namespace Sys2Proof.Machine

/-- The seven micro-operations of one data clock of a WRITE (R161, indices 7k+0 to 7k+6). -/
def writeBitSlot : List MicroOp :=
  [.drv .scl, .putbit, .wait, .rel .scl, .await .scl, .wait, .shift]

/-- The ninth clock of a WRITE (R161, indices 56 to 63). -/
def writeAckSlot : List MicroOp :=
  [.drv .scl, .rel .sda, .wait, .rel .scl, .await .scl, .wait, .sampleAck, .drv .scl]

/-- The seven micro-operations of one data clock of a READ (R171). The release of SDA is the spec's
addition to the source's list (R172). -/
def readBitSlot : List MicroOp :=
  [.drv .scl, .rel .sda, .wait, .rel .scl, .await .scl, .wait, .sampleBit]

/-- The ninth clock of a READ (R171, indices 56 to 63). -/
def readAckSlot : List MicroOp :=
  [.drv .scl, .putack, .wait, .rel .scl, .await .scl, .wait, .drv .scl, .rel .sda]

/-- A data clock, n times over: the loop of 00_scope R16, unrolled. -/
def repeatSlot (slot : List MicroOp) : Nat → List MicroOp
  | 0 => []
  | n + 1 => slot ++ repeatSlot slot n

/-- WRITE, length 64 (R161). -/
def writeSequence : List MicroOp := repeatSlot writeBitSlot 8 ++ writeAckSlot

/-- READ, length 64 (R171). -/
def readSequence : List MicroOp := repeatSlot readBitSlot 8 ++ readAckSlot

/-- `SHREG <- w[7:0]` at the acceptance of a WRITE (30_encoding R80). -/
def loadWrite (d : Byte) (s : State) : State := { s with shreg := d }

/-- `ACC <- 0x00` at the acceptance of a READ (30_encoding R80). -/
def loadRead (s : State) : State := { s with acc := 0 }

/-- `complete(OK, ACKS, 0x00)` of a WRITE (10_state R35). -/
def finishWrite (s : State) : State := complete .ok s.acks 0 (phaseAfterWrite s.status.phase) s

/-- `complete(OK, 0, ACC)` of a READ (10_state R35). -/
def finishRead (s : State) : State := complete .ok false s.acc (phaseAfterRead s.status.phase) s

/-- One step of `WRITE h, d` (R161). -/
def execWrite (sda scl : Pin) (d : Byte) (s : State) : Host.Outcome State Fault Refusal :=
  commandStep (encode (.write sda scl d)) (loadWrite d) writeSequence finishWrite s

/-- One step of `READ h, ACK` or `READ h, NACK` (R171). -/
def execRead (sda scl : Pin) (a : Bool) (s : State) : Host.Outcome State Fault Refusal :=
  commandStep (encode (.read sda scl a)) loadRead readSequence finishRead s

end Sys2Proof.Machine
end

