-- ==== Sys2Proof/Machine/Dispatch.lean ====
section
/-! DEFINITION. One step of a command: its acceptance when BUSY = 0, the micro-operation at UPC when
it is the command in flight (log 7). One arm per constructor of Instr. -/

namespace Sys2Proof.Machine

def exec (i : Instr) (s : State) : Host.Outcome State Fault Refusal :=
  match i with
  | .init sda scl => Sys2Proof.Machine.execInit sda scl s
  | .start sda scl => Sys2Proof.Machine.execStart sda scl s
  | .stop sda scl => Sys2Proof.Machine.execStop sda scl s
  | .write sda scl d => Sys2Proof.Machine.execWrite sda scl d s
  | .read sda scl a => Sys2Proof.Machine.execRead sda scl a s

end Sys2Proof.Machine
end

