-- ==== Sys2Proof/Machine/HostPort.lean ====
section
/-! DEFINITION. The turns of the agents (10_state R44 to R46, 70_reset R230): a write of CMD, a read
of STATUS, the external reset, and the sequencer's own step. -/

namespace Sys2Proof.Machine

/-- The host's actions without the one just taken. -/
def dropAction (s : State) : State := { s with host := s.host.tail }

/-- `WriteCMD(w)` (10_state R44, 30_encoding R80). -/
def writeCmd (w : Word) (s : State) : Host.Outcome State Fault Refusal :=
  if s.status.busy then .refused .cmdWhileBusy
  else
    match decode w with
    | .error _ => .next (raiseIllegal w s)
    | .ok i => exec i s

/-- `ReadSTATUS()` (10_state R45): the value goes to the host; nothing of the machine changes. -/
def readStatus (s : State) : State :=
  { s with statusReads := s.statusReads ++ [statusWord s.status] }

/-- The external reset (70_reset R230): every piece of the machine's state takes its reset value.
What belongs to the other agents, the configuration and the record stay (log 9). -/
def resetMachine (s : State) : State :=
  { State.reset with
    stretchLimit := s.stretchLimit
    host := s.host
    statusReads := s.statusReads
    draws := s.draws
    drawCount := s.drawCount
    events := s.events }

/-- The sequencer's turn (10_state R46): with BUSY = 1 one micro-operation of the command in CUR;
with BUSY = 0 it has no step and the state stays (log 3). -/
def sequencerTurn (s : State) : Host.Outcome State Fault Refusal :=
  if s.status.busy then
    match decode s.cur with
    | .error _ => .fault .illegalCur
    | .ok i => exec i s
  else .next s

/-- The turn in which the host waits for BUSY = 0: the sequencer moves while it is 1, and the wait
ends when it is 0 (70_reset R235). -/
def waitTurn (s : State) : Host.Outcome State Fault Refusal :=
  if s.status.busy then sequencerTurn s else .next (dropAction s)

/-- One turn, in the order the host's list gives (20_memory R61). -/
def turn (s : State) : Host.Outcome State Fault Refusal :=
  match s.host with
  | [] => sequencerTurn s
  | .writeCmd w :: _ => writeCmd w (dropAction s)
  | .readStatus :: _ => .next (readStatus (dropAction s))
  | .pass :: _ => sequencerTurn (dropAction s)
  | .waitIdle :: _ => waitTurn s
  | .reset :: _ => .next (resetMachine (dropAction s))

/-- The actions of a host that issues each word and waits for BUSY = 0 before the next, which is the
source's blocking call (10_state R36, 70_reset R235). -/
def blockingActions : List Word → List HostAction
  | [] => []
  | w :: rest => .writeCmd w :: .waitIdle :: blockingActions rest

/-- The state in which the host's next action is to write this word to an idle CMD. -/
def offerWord (w : Word) (s : State) : State :=
  { s with
    host := .writeCmd w :: s.host
    status := { s.status with busy := false } }

end Sys2Proof.Machine
end

