-- ==== Sys2Proof/Machine/Step.lean ====
section
/-! DEFINITION. One step of the machine, and where it takes its next command word from. -/

namespace Sys2Proof.Machine

/-- One atomic step of one agent (10_state R46, 20_memory R61). -/
def step (s : State) : Host.Outcome State Fault Refusal := turn s

/-- The machine fetches no program: a command word reaches it only through CMD (20_memory R64). So
the word stands where the next step takes it from, at the head of the host's actions, with CMD free
to take it (log 2). -/
def State.withFetchWord (s : State) (nbits w : Nat) : State := offerWord (tableWord nbits w) s

end Sys2Proof.Machine
end

