-- ==== Sys2Proof/Machine/Assembler.lean ====
section
/-! DEFINITION. The assembler and its pseudo-commands (30_encoding R82 to R89): lines as data, what
each expands to, and the text they are written in. It is host software: no step reads it. -/

namespace Sys2Proof.Machine

/-- A handle operand: an 8-bit literal or `sda:scl` (R83). -/
inductive HandleOperand where
  | literal (n : Nat)
  | pins (sda scl : Nat)
  deriving DecidableEq, Repr

/-- A line of assembler: the five commands (R82) and the four pseudo-commands (R84 to R87). -/
inductive AsmLine where
  | init (h : HandleOperand)
  | start (h : HandleOperand)
  | stop (h : HandleOperand)
  | write (h : HandleOperand) (b : Nat)
  | read (h : HandleOperand) (ack : Bool)
  | begin_ (h : HandleOperand)
  | beginTx (h : HandleOperand) (addr : Nat)
  | endTx (h : HandleOperand)
  | requestFrom (h : HandleOperand) (addr qty : Nat)
  deriving DecidableEq, Repr

/-- The handle operand of a line. -/
def lineHandle : AsmLine → HandleOperand
  | .init h => h
  | .start h => h
  | .stop h => h
  | .write h _ => h
  | .read h _ => h
  | .begin_ h => h
  | .beginTx h _ => h
  | .endTx h => h
  | .requestFrom h _ _ => h

/-- Why the assembler refuses a line. The spec names no ground: the names, and which one is given where
several hold, are the model's (DESIGN CHOICE, log 22). -/
inductive AsmRefusal where
  /-- A handle literal over 8 bits (R83). -/
  | handleTooWide
  /-- A pin identifier over 15 in the `sda:scl` form (R83). -/
  | pinTooLarge
  /-- A byte over 255 (R82). -/
  | byteTooLarge
  /-- An address over 127 (R88). -/
  | addressTooLarge
  /-- Text that is no line of the assembler. -/
  | unreadable
  deriving DecidableEq, Repr

/-- The 8-bit handle a handle operand stands for (R83). A literal over 8 bits is refused: DEDUCED,
log 23. -/
def handleValue : HandleOperand → Except AsmRefusal Byte
  | .literal n => if n ≤ 255 then .ok (BitVec.ofNat 8 n) else .error .handleTooWide
  | .pins sda scl =>
    if sda ≤ 15 ∧ scl ≤ 15 then .ok (encodeHandle sda scl) else .error .pinTooLarge

/-- A `<byte>` operand: an integer 0..255 (R82). A larger one is refused: DEDUCED, log 23. -/
def byteValue (n : Nat) : Except AsmRefusal Byte :=
  if n ≤ 255 then .ok (BitVec.ofNat 8 n) else .error .byteTooLarge

/-- The address byte `(<addr> << 1) | rw` of a 7-bit address (R85, R87, R88). -/
def addressByte (addr : Nat) (rw : Bool) : Except AsmRefusal Byte :=
  if addr ≤ 127 then .ok ((BitVec.ofNat 8 addr <<< 1) ||| (BitVec.ofBool rw).setWidth 8)
  else .error .addressTooLarge

/-- START and the address byte, which BEGIN_TX and REQUEST_FROM expand to (R85, R87). The handle is
checked before the address: DESIGN CHOICE, log 22. -/
def addressed (h : HandleOperand) (addr : Nat) (rw : Bool) : Except AsmRefusal (List Instr) :=
  match handleValue h, addressByte addr rw with
  | .error e, _ => .error e
  | .ok _, .error e => .error e
  | .ok v, .ok b => .ok [.start (sdaOf v) (sclOf v), .write (sdaOf v) (sclOf v) b]

/-- The commands a line stands for, in order. No expansion is cut short or repeated (R89), and the
quantity of a REQUEST_FROM "is assembled into nothing" (R87). The handle of a WRITE is checked before
its byte: DESIGN CHOICE, log 22. -/
def expand : AsmLine → Except AsmRefusal (List Instr)
  | .init h => (handleValue h).map fun v => [.init (sdaOf v) (sclOf v)]
  | .start h => (handleValue h).map fun v => [.start (sdaOf v) (sclOf v)]
  | .stop h => (handleValue h).map fun v => [.stop (sdaOf v) (sclOf v)]
  | .write h n =>
    match handleValue h, byteValue n with
    | .error e, _ => .error e
    | .ok _, .error e => .error e
    | .ok v, .ok b => .ok [.write (sdaOf v) (sclOf v) b]
  | .read h a => (handleValue h).map fun v => [.read (sdaOf v) (sclOf v) a]
  | .begin_ h => (handleValue h).map fun v => [.init (sdaOf v) (sclOf v)]
  | .beginTx h addr => addressed h addr false
  | .endTx h => (handleValue h).map fun v => [.stop (sdaOf v) (sclOf v)]
  | .requestFrom h addr _ => addressed h addr true

/-- The command words of a line: "Each line assembles to one command word by rule R73" (R82), a
pseudo-command to the words of its expansion. -/
def assembleLine (l : AsmLine) : Except AsmRefusal (List Word) := (expand l).map (·.map encode)

/-- The command words of a program, its lines in order. One refused line refuses the program, by the
ground of the first such line: DESIGN CHOICE, log 22. -/
def assembleLines : List AsmLine → Except AsmRefusal (List Word)
  | [] => .ok []
  | l :: rest =>
    match assembleLine l, assembleLines rest with
    | .error e, _ => .error e
    | .ok _, .error e => .error e
    | .ok ws, .ok more => .ok (ws ++ more)

/-! ### The text (R82, R83; the details R82 leaves open are log 15) -/

/-- Split a text at every `c`. -/
def splitAtChar (c : Char) : List Char → List (List Char)
  | [] => [[]]
  | x :: xs =>
    if x = c then [] :: splitAtChar c xs
    else
      match splitAtChar c xs with
      | [] => [[x]]
      | y :: ys => (x :: y) :: ys

/-- A blank inside a line. -/
def isBlank (c : Char) : Bool := c == ' ' || c == '\t' || c == '\r'

/-- A text without the blanks around it. -/
def trimBlanks (t : List Char) : List Char :=
  ((t.dropWhile isBlank).reverse.dropWhile isBlank).reverse

/-- The value of a digit, up to base 16. -/
def digitValue (c : Char) : Option Nat :=
  if '0' ≤ c ∧ c ≤ '9' then some (c.toNat - 48)
  else if 'a' ≤ c ∧ c ≤ 'f' then some (c.toNat - 87)
  else if 'A' ≤ c ∧ c ≤ 'F' then some (c.toNat - 55)
  else none

/-- Read digits of a base onto a value. -/
def readDigits (base : Nat) : Nat → List Char → Option Nat
  | v, [] => some v
  | v, c :: rest =>
    match digitValue c with
    | none => none
    | some d => if d < base then readDigits base (v * base + d) rest else none

/-- An integer "in decimal, `0x` hex or `0b` binary" (R82). -/
def readNumber : List Char → Option Nat
  | [] => none
  | '0' :: 'x' :: c :: rest => readDigits 16 0 (c :: rest)
  | '0' :: 'b' :: c :: rest => readDigits 2 0 (c :: rest)
  | c :: rest => readDigits 10 0 (c :: rest)

/-- A handle operand: `sda:scl`, or a literal (R83). The literal and both pins may be written in any
base of R82, with any number of digits: DESIGN CHOICE, log 15. -/
def readHandle (t : List Char) : Option HandleOperand :=
  match splitAtChar ':' t with
  | [h] => (readNumber (trimBlanks h)).map .literal
  | [p, q] =>
    match readNumber (trimBlanks p), readNumber (trimBlanks q) with
    | some a, some b => some (.pins a b)
    | _, _ => none
  | _ => none

/-- `ACK` or `NACK` (R82). -/
def readAckWord (t : List Char) : Option Bool :=
  if t = ['A', 'C', 'K'] then some true
  else if t = ['N', 'A', 'C', 'K'] then some false
  else none

/-- The operands of a line: separated by commas (R82), none where there is no text. -/
def readOperands (t : List Char) : List (List Char) :=
  if trimBlanks t = [] then [] else (splitAtChar ',' t).map trimBlanks

/-- A command with a handle and nothing else. -/
def readBare (f : HandleOperand → AsmLine) : List (List Char) → Option AsmLine
  | [h] => (readHandle h).map f
  | _ => none

/-- A command with a handle and a number: a `<byte>` in a base of R82, and an `<addr>` in the same
bases (DESIGN CHOICE, log 15). -/
def readNumbered (f : HandleOperand → Nat → AsmLine) : List (List Char) → Option AsmLine
  | [h, n] =>
    match readHandle h, readNumber n with
    | some x, some v => some (f x v)
    | _, _ => none
  | _ => none

/-- `READ <h>, ACK` or `READ <h>, NACK`. -/
def readRead : List (List Char) → Option AsmLine
  | [h, a] =>
    match readHandle h, readAckWord a with
    | some x, some v => some (.read x v)
    | _, _ => none
  | _ => none

/-- `REQUEST_FROM <h>, <addr>, <qty>`, both numbers in the bases of R82 (DESIGN CHOICE, log 15). -/
def readRequest : List (List Char) → Option AsmLine
  | [h, addr, qty] =>
    match readHandle h, readNumber addr, readNumber qty with
    | some x, some v, some n => some (.requestFrom x v n)
    | _, _, _ => none
  | _ => none

/-- A line by its mnemonic and operands (R82, R84 to R87). -/
def readMnemonic (m : List Char) (ops : List (List Char)) : Option AsmLine :=
  if m = ['I', 'N', 'I', 'T'] then readBare .init ops
  else if m = ['S', 'T', 'A', 'R', 'T'] then readBare .start ops
  else if m = ['S', 'T', 'O', 'P'] then readBare .stop ops
  else if m = ['W', 'R', 'I', 'T', 'E'] then readNumbered .write ops
  else if m = ['R', 'E', 'A', 'D'] then readRead ops
  else if m = ['B', 'E', 'G', 'I', 'N'] then readBare .begin_ ops
  else if m = ['B', 'E', 'G', 'I', 'N', '_', 'T', 'X'] then readNumbered .beginTx ops
  else if m = ['E', 'N', 'D', '_', 'T', 'X'] then readBare .endTx ops
  else if m = ['R', 'E', 'Q', 'U', 'E', 'S', 'T', '_', 'F', 'R', 'O', 'M'] then readRequest ops
  else none

/-- A line without its comment: "A `;` starts a comment" (R82). -/
def dropComment (t : List Char) : List Char := t.takeWhile (· != ';')

/-- One line of text: nothing, where it is blank, or a line of assembler. -/
def readLine (t : List Char) : Except AsmRefusal (Option AsmLine) :=
  let body := trimBlanks (dropComment t)
  if body = [] then .ok none
  else
    match readMnemonic (body.takeWhile (!isBlank ·)) (readOperands (body.dropWhile (!isBlank ·))) with
    | none => .error .unreadable
    | some l => .ok (some l)

/-- The lines of a program's text: "One command per line" (R82). One unreadable line refuses the text:
DESIGN CHOICE, log 22. -/
def readLines : List (List Char) → Except AsmRefusal (List AsmLine)
  | [] => .ok []
  | t :: rest =>
    match readLine t, readLines rest with
    | .error e, _ => .error e
    | .ok _, .error e => .error e
    | .ok none, .ok more => .ok more
    | .ok (some l), .ok more => .ok (l :: more)

/-- The command words of a program's text. An unreadable line is reported before an operand out of range
in any line: DESIGN CHOICE, log 22. -/
def assembleText (t : List Char) : Except AsmRefusal (List Word) :=
  match readLines (splitAtChar '\n' t) with
  | .error e => .error e
  | .ok ls => assembleLines ls

end Sys2Proof.Machine
end

