-- ==== Sys2Proof/Machine/Commands.lean ====
section
/-! DEFINITION. A command's micro-sequence, what its acceptance loads and how it completes, as
functions of the command: `sequence(CUR)` of 40_line_driver R100. -/

namespace Sys2Proof.Machine

/-- `sequence(CUR)` (40_line_driver R100). -/
def sequenceOf : Instr → List MicroOp
  | .init _ _ => initSequence
  | .start _ _ => startSequence
  | .stop _ _ => stopSequence
  | .write _ _ _ => writeSequence
  | .read _ _ _ => readSequence

/-- What the acceptance of a command loads beside CUR, UPC, POLLS and ACKS (30_encoding R80). -/
def loadOf : Instr → State → State
  | .init _ _ => id
  | .start _ _ => id
  | .stop _ _ => id
  | .write _ _ d => loadWrite d
  | .read _ _ _ => loadRead

/-- The completion of a command (10_state R35). -/
def finishOf : Instr → State → State
  | .init _ _ => finishInit
  | .start _ _ => finishStart
  | .stop _ _ => finishStop
  | .write _ _ _ => finishWrite
  | .read _ _ _ => finishRead

/-- PHASE after a command completes with ST = OK (10_state R34). -/
def phaseAfter : Instr → Phase → Phase
  | .init _ _ => phaseAfterInit
  | .start _ _ => phaseAfterStart
  | .stop _ _ => phaseAfterStop
  | .write _ _ _ => phaseAfterWrite
  | .read _ _ _ => phaseAfterRead

end Sys2Proof.Machine
end

