-- ==== Sys2Proof/Machine/Wire.lean ====
section
/-! DEFINITION. What is seen outside the machine: the waveform of a run and the conditions on it
(20_memory R65, 41_bus_conditions R130), the platform calls behind the events (60_exceptions R217),
and the least time a run takes (70_reset R244, R245). No step reads any of it. -/

namespace Sys2Proof.Machine

/-- The driver modes of all pins. -/
abbrev PinFile := Vector PinMode 16

/-- The levels of SDA and SCL. -/
abbrev Levels := Level × Level

/-- The levels of the two lines under one draw for each pin (20_memory R52, log 20). -/
def levelsOf (f : PinFile) (sda scl : Pin) (draw : Pin → Bool) : Levels :=
  (levelOf (f[sda.toNat]'sda.isLt) (draw sda), levelOf (f[scl.toNat]'scl.isLt) (draw scl))

/-- A START condition: "a change of `L(SDA)` from high to low while `L(SCL)` is high" (R130),
which is taken as high before and after the change: DESIGN CHOICE, log 24. -/
def isStartCondition (a b : Levels) : Bool :=
  a.1 == .high && b.1 == .low && a.2 == .high && b.2 == .high

/-- A STOP condition: "a change of `L(SDA)` from low to high while `L(SCL)` is high" (R130),
which is taken as high before and after the change: DESIGN CHOICE, log 24. -/
def isStopCondition (a b : Levels) : Bool :=
  a.1 == .low && b.1 == .high && a.2 == .high && b.2 == .high

/-- The levels after each `Mode` event, the n-th under the n-th draw (20_memory R65). A reset has no
event, so past one these are the levels of the modes before it: DESIGN CHOICE, log 21. -/
def levelsAfter (sda scl : Pin) (draw : Nat → Pin → Bool) : Nat → PinFile → List Event → List Levels
  | _, _, [] => []
  | n, f, .mode p m :: rest =>
    levelsOf (f.set p.toNat m p.isLt) sda scl (draw n) ::
      levelsAfter sda scl draw (n + 1) (f.set p.toNat m p.isLt) rest
  | n, f, .accept _ :: rest => levelsAfter sda scl draw n f rest
  | n, f, .refuse _ :: rest => levelsAfter sda scl draw n f rest
  | n, f, .sample _ _ :: rest => levelsAfter sda scl draw n f rest
  | n, f, .wait :: rest => levelsAfter sda scl draw n f rest
  | n, f, .complete _ _ _ :: rest => levelsAfter sda scl draw n f rest
  | n, f, .abort _ :: rest => levelsAfter sda scl draw n f rest

/-- The waveform of a record from driver modes `f`: the levels before it, then those after each
`Mode` event (20_memory R65). -/
def waveform (sda scl : Pin) (draw : Nat → Pin → Bool) (f : PinFile) (es : List Event) :
    List Levels :=
  levelsOf f sda scl (draw 0) :: levelsAfter sda scl draw 1 f es

/-- How often neighbouring entries of a waveform make a condition. Between two `Mode` events the
waveform has no entry, so a pair in which SCL changes too, as after a stretch, is none: DESIGN CHOICE,
log 24. -/
def countConditions (cond : Levels → Levels → Bool) : List Levels → Nat
  | [] => 0
  | [_] => 0
  | a :: b :: rest => (if cond a b then 1 else 0) + countConditions cond (b :: rest)

/-- The calls of the platform interface the source names (60_exceptions R217). -/
inductive PlatformCall where
  | setPinInputPullup (pin : Nat)
  | setPinOutputLow (pin : Nat)
  | readPin (pin : Nat) (result : Level)
  | delayMicroseconds (n : Nat)
  deriving DecidableEq, Repr

/-- "`REL` is `setPinInputPullup`, `DRV` is `setPinOutputLow`, `LineRead` is `readPin` and `WAIT` is
`delayMicroseconds(P_T_HALF_US)`" (60_exceptions R217). No micro-operation writes Unknown. -/
def platformCall : Event → Option PlatformCall
  | .mode p .released => some (.setPinInputPullup (Config.pinMap p))
  | .mode p .drivenLow => some (.setPinOutputLow (Config.pinMap p))
  | .mode _ .unknown => none
  | .sample p v => some (.readPin (Config.pinMap p) v)
  | .wait => some (.delayMicroseconds Config.tHalfUs)
  | .accept _ => none
  | .refuse _ => none
  | .complete _ _ _ => none
  | .abort _ => none

/-- A `Mode` event. -/
def isModeEvent : Event → Bool
  | .mode _ _ => true
  | .accept _ => false
  | .refuse _ => false
  | .sample _ _ => false
  | .wait => false
  | .complete _ _ _ => false
  | .abort _ => false

/-- A `Sample` event. -/
def isSampleEvent : Event → Bool
  | .sample _ _ => true
  | .accept _ => false
  | .refuse _ => false
  | .mode _ _ => false
  | .wait => false
  | .complete _ _ _ => false
  | .abort _ => false

/-- A `Wait` event. -/
def isWaitEvent : Event → Bool
  | .wait => true
  | .accept _ => false
  | .refuse _ => false
  | .mode _ _ => false
  | .sample _ _ => false
  | .complete _ _ _ => false
  | .abort _ => false

/-- The least duration of a record in microseconds: `P_T_HALF_US` for each WAIT (70_reset R245). -/
def minDurationUs (es : List Event) : Nat := es.countP isWaitEvent * Config.tHalfUs

end Sys2Proof.Machine
end

