-- ==== Sys2Proof/Safety.lean ====
section
/-! DEFINITION. What the states of a run satisfy (`State.Inv`), and what the host owes the machine
(70_reset R233 to R241). No step reads any of it. -/

namespace Sys2Proof

/-- `N >= 1` (00_scope R7). -/
def StretchLimit.valid : StretchLimit → Bool
  | .unbounded => true
  | .bounded n => decide (1 ≤ n)

end Sys2Proof

namespace Sys2Proof.Machine

/-! ### A command in flight -/

/-- The pin a line name stands for in a command. -/
def pinOf (i : Instr) : Line → Pin
  | .sda => i.sda
  | .scl => i.scl

/-- The command `i` is executing, and `op` is its next micro-operation. -/
def runs (i : Instr) (op : MicroOp) (s : State) : Prop :=
  s.status.busy = true ∧ s.cur = encode i ∧ (sequenceOf i)[s.upc.toNat]? = some op

/-- The command `i` is executing, and UPC = n. -/
def runsAt (i : Instr) (n : Nat) (s : State) : Prop :=
  s.status.busy = true ∧ s.cur = encode i ∧ s.upc.toNat = n

/-- More micro-operations follow the one at UPC. -/
def moreToRun (i : Instr) (s : State) : Prop := s.upc.toNat + 1 < (sequenceOf i).length

/-! ### The pins a command in flight writes -/

/-- The line a micro-operation of `i` writes and the mode it writes there, if it writes one. -/
def writtenLine (i : Instr) (s : State) : MicroOp → Option (Line × PinMode)
  | .rel l => some (l, .released)
  | .drv l => some (l, .drivenLow)
  | .await _ => none
  | .wait => none
  | .putbit => some (.sda, modeOfBit (currentBit s))
  | .shift => none
  | .sampleAck => none
  | .sampleBit => none
  | .putack => some (.sda, modeOfAck i.ackBit)

/-- What the micro-operations already executed have left: the mode last written to SDA and to SCL by
this command, if any, and the number of SHIFTs. -/
structure Drivers where
  sda : Option PinMode
  scl : Option PinMode
  shifts : Nat
  deriving DecidableEq, Repr

/-- A command at UPC = 0 has written nothing. -/
def Drivers.none : Drivers := ⟨Option.none, Option.none, 0⟩

/-- The history after one more micro-operation of the command `i`. Bit 7 - k of the data byte is on
SDA in the clock after k SHIFTs (42_byte_transfer R162). -/
def driversStep (i : Instr) (h : Drivers) : MicroOp → Drivers
  | .rel .sda => { h with sda := some .released }
  | .rel .scl => { h with scl := some .released }
  | .drv .sda => { h with sda := some .drivenLow }
  | .drv .scl => { h with scl := some .drivenLow }
  | .await _ => h
  | .wait => h
  | .putbit => { h with sda := some (modeOfBit (i.dataByte.getLsbD (7 - h.shifts))) }
  | .shift => { h with shifts := h.shifts + 1 }
  | .sampleAck => h
  | .sampleBit => h
  | .putack => { h with sda := some (modeOfAck i.ackBit) }

/-- The history of `i` when UPC = n: its first n micro-operations, in order. -/
def driversAt (i : Instr) (n : Nat) : Drivers :=
  ((sequenceOf i).take n).foldl (driversStep i) Drivers.none

/-- A pin is in the mode last written to it, where something was written. -/
def agrees : Option PinMode → PinMode → Bool
  | none, _ => true
  | some m, x => m == x

/-! ### The invariant of a run -/

/-- What holds while the command `i` executes. -/
structure InFlight (i : Instr) (s : State) : Prop where
  /-- UPC names a micro-operation (10_state R26). -/
  upcInside : s.upc.toNat < (sequenceOf i).length
  /-- POLLS counts the polls of the AWAIT in progress (R30). -/
  pollsAwait : s.polls ≠ 0 → (sequenceOf i)[s.upc.toNat]? = some (.await .scl)
  /-- "AWAIT always reads a `Released` pin" (40_line_driver R104). -/
  awaitReleased :
    (sequenceOf i)[s.upc.toNat]? = some (.await .scl) → s.mode i.scl = .released
  /-- With two pins, SDA is in the mode this command last gave it. -/
  sdaDriver : i.sda ≠ i.scl → agrees (driversAt i s.upc.toNat).sda (s.mode i.sda) = true
  /-- With two pins, SCL is in the mode this command last gave it. -/
  sclDriver : i.sda ≠ i.scl → agrees (driversAt i s.upc.toNat).scl (s.mode i.scl) = true
  /-- SHREG of a WRITE is its byte, shifted once for each clock done (10_state R27). -/
  shregShifted :
    i.opcode = 4 → s.shreg = i.dataByte <<< (driversAt i s.upc.toNat).shifts

/-- POLLS is below the limit between steps: the poll that reaches it ends the command (10_state R30,
60_exceptions R204). -/
def pollsBelow : StretchLimit → Nat → Bool
  | .unbounded, _ => true
  | .bounded n, k => decide (k < n)

/-- The invariant of every run: a legal command in CUR while BUSY = 1, UPC inside its sequence, and
the driver pins as the command has set them. -/
structure State.Inv (s : State) : Prop where
  limitValid : s.stretchLimit.valid = true
  pollsBelowLimit : pollsBelow s.stretchLimit s.polls = true
  /-- "it never exceeds the length of its sequence, at most 64" (10_state R26). -/
  upcRange : s.upc.toNat ≤ 64
  pollsIdle : s.status.busy = false → s.polls = 0
  inFlight : s.status.busy = true → ∃ i, decode s.cur = .ok i ∧ InFlight i s

/-! ### The host's duties -/

/-- "SDA and SCL must name different pins" (70_reset R241): a duty of the host, checked nowhere in
the machine. -/
def Instr.twoPins (i : Instr) : Prop := i.sda ≠ i.scl

/-- "The host must not write CMD while STATUS.BUSY = 1" (70_reset R235), as a property of the host's
actions: `maybeBusy` says whether BUSY can be 1 when the next of them is taken. -/
def disciplined : Bool → List HostAction → Bool
  | _, [] => true
  | maybeBusy, .writeCmd _ :: rest => !maybeBusy && disciplined true rest
  | maybeBusy, .readStatus :: rest => disciplined maybeBusy rest
  | maybeBusy, .pass :: rest => disciplined maybeBusy rest
  | _, .waitIdle :: rest => disciplined false rest
  | _, .reset :: rest => disciplined false rest

/-- The host leaves every turn to the sequencer while BUSY = 1: it has no action left, or waits for
BUSY = 0 before its next (70_reset R235). -/
def leavesTurns : List HostAction → Bool
  | [] => true
  | .waitIdle :: _ => true
  | .writeCmd _ :: _ => false
  | .readStatus :: _ => false
  | .pass :: _ => false
  | .reset :: _ => false

/-- The actions a host takes before its first wait for BUSY = 0. -/
def beforeWait (l : List HostAction) : List HostAction := l.takeWhile (· != .waitIdle)

/-- Up to its first wait for BUSY = 0 the host only passes and reads STATUS: it writes no CMD and
resets nothing. -/
def onlyWatches (l : List HostAction) : Bool :=
  (beforeWait l).all fun a => a == .pass || a == .readStatus

/-- k steps of the machine, which is `Host.Core.run` of its core (Laws/Step.lean). -/
def runSteps : Nat → State → Host.Outcome State Fault Refusal
  | 0, s => .next s
  | k + 1, s =>
    match step s with
    | .next t => runSteps k t
    | .fault f => .fault f
    | .refused r => .refused r

/-- A run is safe for k steps when no step of it is refused and none faults. -/
def safeFor (k : Nat) (s : State) : Prop := ∃ t, runSteps k s = .next t

/-- The boot order of 70_reset R233: the first command of a program is the INIT of the handle its
other commands use. -/
def bootsWithInit : List Instr → Bool
  | .init p q :: rest => rest.all fun i => i.sda == p && i.scl == q
  | _ => false

/-- The READs of a transaction answer ACK, and the one before another command NACK ("the last one with
NACK", 70_reset R239). -/
def lastReadNacked : List Instr → Bool
  | [] => true
  | [.read _ _ a] => !a
  | .read _ _ a :: .read p q b :: rest => a && lastReadNacked (.read p q b :: rest)
  | .read _ _ a :: _ :: rest => !a && lastReadNacked rest
  | _ :: rest => lastReadNacked rest

end Sys2Proof.Machine
end

