-- ==== Sys2Proof/Certificates/Slice0/Obligations.lean ====
section
/-! DEFINITION. The statements about MWSEQ, each naming the rules of spec/ it formalises. A statement
that gives the next state as an update of the old one gives its frame with it: every field not named
is unchanged. -/

open Sys2Proof Sys2Proof.Machine

/-! ### Handles and command words (30_encoding.md) -/

/-- R72: the round trip inside 0..15, the low 4 bits outside it, and the assembler's refusal. For
negative inputs the low 4 bits are `x mod 16` by R70, which the spec marks as general knowledge
(log 16). -/
def Obligations.HandleRoundTripAndTruncation : Prop :=
  (∀ p q : Pin, sdaOf (encodeHandle p.toNat q.toNat) = p ∧ sclOf (encodeHandle p.toNat q.toNat) = q) ∧
  (∀ p q : Nat, (sdaOf (encodeHandle p q)).toNat = p &&& 0xF ∧
    (sclOf (encodeHandle p q)).toNat = q &&& 0xF) ∧
  (∀ p q : Int, ((sdaOf (encodeHandle p q)).toNat : Int) = p % 16 ∧
    ((sclOf (encodeHandle p q)).toNat : Int) = q % 16) ∧
  (∀ p q : Nat, 15 < p ∨ 15 < q → handleValue (.pins p q) = .error .pinTooLarge)

/-- R75: bits 23:16 of every word are the handle of its two pins, and a word built on a handle
carries it. -/
def Obligations.HandleFieldOfWord : Prop :=
  (∀ w : Word, handleField w = encodeHandle (sdaField w).toNat (sclField w).toNat ∧
    sdaField w = sdaOf (handleField w) ∧ sclField w = sclOf (handleField w)) ∧
  (∀ (h : Byte) (op : BitVec 4) (a : Bool) (d : Byte),
    handleField (commandWord (sdaOf h) (sclOf h) op a d) = h)

/-- Decoding and encoding agree: a word decodes to a command exactly when it is that command's
encoding, with every operand at every value, so no bit of a legal word is dropped (from R73, R74, R76,
R77, R81). -/
def Obligations.DecodeExactlyInvertsEncode : Prop :=
  ∀ (w : Word) (i : Instr), decode w = .ok i ↔ encode i = w

/-- R77: a word is legal exactly when its OP, RSV, A and D fields are (no value of SDA or SCL makes a
word illegal), exactly when it matches a row of the match and mask table, and exactly when the decoder
accepts it; the row it matches is that of the command it decodes to. -/
def Obligations.DecoderAcceptsExactlyLegalWords : Prop :=
  ∀ w : Word,
    (legalWord w = true ↔
      (1 ≤ (opField w).toNat ∧ (opField w).toNat ≤ 5) ∧ rsvField w = 0 ∧
      (ackField w = true → opField w = 5) ∧ (dataField w ≠ 0 → opField w = 4)) ∧
    (legalWord w = true ↔ ∃ r ∈ opcodeTable, r.covers w = true) ∧
    ((∃ i, decode w = .ok i) ↔ legalWord w = true) ∧
    (∀ i, decode w = .ok i → ∀ r ∈ opcodeTable, (r.covers w = true ↔ r.mnemonic = i.mnemonic))

/-- R81: every word matches exactly one row and is that command, or matches none and is illegal. -/
def Obligations.EveryWordOneCommandOrIllegal : Prop :=
  ∀ w : Word,
    ((∃ i, decode w = .ok i) ∧ ∃ r ∈ opcodeTable, r.covers w = true ∧
      ∀ q ∈ opcodeTable, q.covers w = true → q = r) ∨
    ((∃ e, decode w = .error e) ∧ ∀ r ∈ opcodeTable, r.covers w = false)

/-- The words of 95_test_vectors section 2.2 decode as it says. -/
def Obligations.WrittenOutWordsDecode : Prop :=
  decode 0b010001010001000000000000 = .ok (.init 4 5) ∧
  decode 0b010001010010000000000000 = .ok (.start 4 5) ∧
  decode 0b010001010011000000000000 = .ok (.stop 4 5) ∧
  decode 0b010001010100000010100101 = .ok (.write 4 5 0xA5) ∧
  decode 0b010001010101000100000000 = .ok (.read 4 5 true) ∧
  decode 0b010001010101000000000000 = .ok (.read 4 5 false) ∧
  decode 0b111111110100000011111111 = .ok (.write 15 15 0xFF)

/-! ### State, reset and STATUS (10_state.md, 70_reset_and_hazards.md) -/

/-- R43: the reset value of every piece of the machine's state, which D10 and D12 of the spec ground.
Nothing runs until the host writes CMD: with no host action the reset state stays as it is (that such a
step answers the same state is the model's form, log 3). -/
def Obligations.ResetValues : Prop :=
  (∀ p : Pin, State.reset.mode p = .unknown) ∧ State.reset.cur = 0 ∧ State.reset.upc = 0 ∧
  State.reset.shreg = 0 ∧ State.reset.acc = 0 ∧ State.reset.acks = false ∧ State.reset.polls = 0 ∧
  State.reset.status = ⟨.idle, false, .ok, false, 0⟩ ∧ statusWord State.reset.status = 0x0000 ∧
  step State.reset = .next State.reset

/-- The external reset, in any state, idle, busy or hanging, gives every piece of the machine's state
its reset value in one step (R230); that the configuration, the other agents' data and the record
stay is the model's own (log 9). -/
def Obligations.ExternalResetFromAnyState : Prop :=
  ∀ (s : State) (rest : List HostAction), s.host = .reset :: rest →
    step s = .next { State.reset with
      stretchLimit := s.stretchLimit
      host := rest
      statusReads := s.statusReads
      draws := s.draws
      drawCount := s.drawCount
      events := s.events }

/-- Where each field of STATUS stands in the word the host reads, with its codes (R32, R33, R37). -/
def Obligations.StatusWordLayout : Prop :=
  ∀ x : Status,
    (statusWord x).extractLsb' 14 2 = 0 ∧
    (statusWord x).extractLsb' 12 2 =
      (match x.phase with | .idle => 0b00 | .started => 0b01 | .addressPhase => 0b10 | .dataPhase => 0b11) ∧
    (statusWord x).getLsbD 11 = x.busy ∧
    (statusWord x).extractLsb' 9 2 =
      (match x.st with | .ok => 0b00 | .timeout => 0b01 | .illegal => 0b10) ∧
    (statusWord x).getLsbD 8 = x.ack ∧
    (statusWord x).extractLsb' 0 8 = x.data

/-- R45: a read of STATUS is always possible, gives its value and changes nothing of the machine. -/
def Obligations.ReadStatusChangesNothing : Prop :=
  ∀ (s : State) (rest : List HostAction), s.host = .readStatus :: rest →
    step s = .next { s with host := rest, statusReads := s.statusReads ++ [statusWord s.status] }

/-- R36: while a command runs, and in its acceptance, every field of STATUS but BUSY keeps the value
the previous command left. -/
def Obligations.StatusHeldWhileBusy : Prop :=
  ∀ s t : State, step s = .next t → s.host.head? ≠ some .reset → t.status.busy = true →
    t.status = { s.status with busy := true }

/-- R34: the table of phase transitions at completion with ST = OK, and that PHASE is unchanged by
everything else but a reset, an ILLEGAL refusal and a TIMEOUT abort among it. -/
def Obligations.PhaseTransitions : Prop :=
  ∀ s t : State, step s = .next t → s.host.head? ≠ some .reset →
    (s.status.busy = true → t.status.busy = false → t.status.st = .ok →
      ∀ i, decode s.cur = .ok i →
        t.status.phase =
          match i, s.status.phase with
          | .init _ _, _ => .idle
          | .start _ _, _ => .started
          | .stop _ _, _ => .idle
          | .write _ _ _, .idle => .idle
          | .write _ _ _, .started => .addressPhase
          | .write _ _ _, .addressPhase => .dataPhase
          | .write _ _ _, .dataPhase => .dataPhase
          | .read _ _ _, .idle => .idle
          | .read _ _ _, .started => .dataPhase
          | .read _ _ _, .addressPhase => .dataPhase
          | .read _ _ _, .dataPhase => .dataPhase) ∧
    (s.status.busy = false ∨ t.status.busy = true ∨ t.status.st ≠ .ok →
      t.status.phase = s.status.phase)

/-- No micro-operation reads a field of STATUS: with other values in them (BUSY alike) a command's
step does the same to everything else (R33, R40). -/
def Obligations.CommandsDoNotReadStatusFields : Prop :=
  ∀ (i : Instr) (s t : State) (x : Status), x.busy = s.status.busy → exec i s = .next t →
    ∃ y : Status, y.busy = t.status.busy ∧ exec i { s with status := x } = .next { t with status := y }

/-! ### Acceptance (30_encoding R80, 10_state R44, 60_exceptions R202) -/

/-- R80, R44: a write of CMD with BUSY = 0 accepts a legal word and refuses an illegal one, in one
step; with BUSY = 1 it ends the run's meaning. -/
def Obligations.WriteCmdAcceptsOrRefuses : Prop :=
  ∀ (s : State) (w : Word) (rest : List HostAction), s.host = .writeCmd w :: rest →
    (s.status.busy = false → legalWord w = true →
      step s = .next { s with
        host := rest, cur := w, upc := 0, polls := 0, acks := false
        shreg := if opField w = 4 then dataField w else s.shreg
        acc := if opField w = 5 then 0 else s.acc
        status := { s.status with busy := true }
        events := s.events ++ [.accept w] }) ∧
    (s.status.busy = false → legalWord w = false →
      step s = .next { s with
        host := rest
        status := { s.status with st := .illegal, ack := false, data := 0 }
        events := s.events ++ [.refuse w] }) ∧
    (s.status.busy = true → step s = .refused .cmdWhileBusy)

/-- R202, R78: on each ground of illegality a word is refused with ST = ILLEGAL and nothing else
changes; no line does. -/
def Obligations.IllegalWordRefused : Prop :=
  ∀ (s : State) (w : Word) (rest : List HostAction), s.host = .writeCmd w :: rest →
    s.status.busy = false →
    (opField w = 0 ∨ 6 ≤ (opField w).toNat ∨ rsvField w ≠ 0 ∨
      (ackField w = true ∧ opField w ≠ 5) ∨ (dataField w ≠ 0 ∧ opField w ≠ 4)) →
    step s = .next { s with
      host := rest
      status := ⟨s.status.phase, false, .illegal, false, 0⟩
      events := s.events ++ [.refuse w] }

/-- Every command, with BUSY = 0, is accepted: the step of each constructor answers the next state
R80 gives. -/
def Obligations.EveryCommandAccepted : Prop :=
  ∀ (i : Instr) (s : State), s.status.busy = false →
    exec i s = .next { s with
      cur := encode i, upc := 0, polls := 0, acks := false
      shreg := (match i with | .write _ _ d => d | .init _ _ => s.shreg | .start _ _ => s.shreg
                             | .stop _ _ => s.shreg | .read _ _ _ => s.shreg)
      acc := (match i with | .read _ _ _ => 0 | .init _ _ => s.acc | .start _ _ => s.acc
                           | .stop _ _ => s.acc | .write _ _ _ => s.acc)
      status := { s.status with busy := true }
      events := s.events ++ [.accept (encode i)] }

/-- A step runs the decoded command: the word the host writes to an idle CMD, the word in CUR while
BUSY = 1, and the word `withFetchWord` offers; with BUSY = 0 and no host action the state stays (the
model's stutter, log 3). -/
def Obligations.StepRunsDecodedCommand : Prop :=
  (∀ (s : State) (w : Word) (rest : List HostAction) (i : Instr), s.host = .writeCmd w :: rest →
    s.status.busy = false → decode w = .ok i → step s = exec i { s with host := rest }) ∧
  (∀ (s : State) (i : Instr), s.status.busy = true → decode s.cur = .ok i →
    (s.host = [] → step s = exec i s) ∧
    (∀ rest, s.host = .pass :: rest → step s = exec i { s with host := rest }) ∧
    (∀ rest, s.host = .waitIdle :: rest → step s = exec i s)) ∧
  (∀ s : State, s.status.busy = false →
    (s.host = [] → step s = .next s) ∧
    (∀ rest, s.host = .pass :: rest → step s = .next { s with host := rest }) ∧
    (∀ rest, s.host = .waitIdle :: rest → step s = .next { s with host := rest })) ∧
  (∀ (s : State) (w : Nat) (i : Instr), decodeTableWord 24 w = some i →
    step (s.withFetchWord 24 w) = exec i { s with status := { s.status with busy := false } })

/-! ### Micro-operations (40_line_driver.md) -/

/-- R100: a command in flight always answers a next state, in one of four ways: UPC moves on, the
command completes, an AWAIT holds, or an AWAIT times out. -/
def Obligations.InFlightCommandAlwaysSteps : Prop :=
  ∀ (i : Instr) (op : MicroOp) (s : State), runs i op s →
    ∃ t, exec i s = .next t ∧ t.cur = s.cur ∧ t.host = s.host ∧ t.stretchLimit = s.stretchLimit ∧
      t.statusReads = s.statusReads ∧
      ((t.upc = s.upc + 1 ∧ t.status = s.status ∧ moreToRun i s) ∨
       (t.upc = s.upc + 1 ∧ t.upc.toNat = (sequenceOf i).length ∧ t.status.busy = false ∧
          t.status.st = .ok) ∨
       (op = .await .scl ∧ t.upc = s.upc ∧ t.status = s.status ∧ t.polls = s.polls + 1) ∨
       (op = .await .scl ∧ t.upc = s.upc ∧ t.status.busy = false ∧ t.status.st = .timeout))

/-- REL and DRV set one driver mode and record it (R101, R102, R100). -/
def Obligations.ReleaseAndDriveSetOneMode : Prop :=
  ∀ (i : Instr) (l : Line) (s : State), moreToRun i s →
    (runs i (.rel l) s → exec i s = .next { s with
      pinMode := (s.setMode (pinOf i l) .released).pinMode
      upc := s.upc + 1, events := s.events ++ [.mode (pinOf i l) .released] }) ∧
    (runs i (.drv l) s → exec i s = .next { s with
      pinMode := (s.setMode (pinOf i l) .drivenLow).pinMode
      upc := s.upc + 1, events := s.events ++ [.mode (pinOf i l) .drivenLow] })

/-- R110: WAIT changes nothing but the record. -/
def Obligations.WaitOnlyRecords : Prop :=
  ∀ (i : Instr) (s : State), runs i .wait s →
    exec i s = .next { s with upc := s.upc + 1, events := s.events ++ [.wait] }

/-- One poll of an AWAIT (R106): a high read ends it, POLLS is 0 and UPC moves on; a low read short of
the limit holds, POLLS counts it and UPC stays. -/
def Obligations.AwaitPollAdvancesOrHolds : Prop :=
  ∀ (i : Instr) (s : State), runs i (.await .scl) s →
    (readLevel i.scl s = .high →
      exec i s = .next { spendForRead i.scl s with
        polls := 0, upc := s.upc + 1, events := s.events ++ [.sample i.scl .high] }) ∧
    (readLevel i.scl s = .low → s.stretchLimit ≠ .bounded (s.polls + 1) →
      exec i s = .next { spendForRead i.scl s with
        polls := s.polls + 1, events := s.events ++ [.sample i.scl .low] })

/-- R204: the N-th low read in a row ends the command with TIMEOUT. A step of a command after which
BUSY is 0 with ST = TIMEOUT, or that records the abort, is such a read, whatever ST the command found:
never with the limit NONE, and only at the AWAITs the rule lists. -/
def Obligations.TimeoutExactlyOnNthLowRead : Prop :=
  (∀ (i : Instr) (s : State), runs i (.await .scl) s → readLevel i.scl s = .low →
    s.stretchLimit = .bounded (s.polls + 1) →
    exec i s = .next { spendForRead i.scl s with
      polls := 0
      status := ⟨s.status.phase, false, .timeout, false, 0⟩
      events := s.events ++ [.sample i.scl .low] ++ [.abort .timeout] }) ∧
  (∀ (i : Instr) (s t : State), exec i s = .next t →
    ((t.status.busy = false ∧ t.status.st = .timeout) ∨
      ∃ es, t.events = s.events ++ es ∧ .abort .timeout ∈ es) →
    runs i (.await .scl) s ∧ readLevel i.scl s = .low ∧ s.stretchLimit = .bounded (s.polls + 1) ∧
    (match i with
      | .init _ _ => False
      | .start _ _ => s.upc.toNat = 2
      | .stop _ _ => s.upc.toNat = 4
      | .write _ _ _ => s.upc.toNat = 60 ∨ ∃ k, k < 8 ∧ s.upc.toNat = 7 * k + 4
      | .read _ _ _ => s.upc.toNat = 60 ∨ ∃ k, k < 8 ∧ s.upc.toNat = 7 * k + 4))

/-- PUTBIT puts SHREG[7] on SDA, low for 0 and released for 1; SHIFT drops bit 7 and brings in 0; both
are steps of a WRITE (R111, R112). -/
def Obligations.PutbitAndShiftOfWrite : Prop :=
  ∀ (sda scl : Pin) (d : Byte) (s : State),
    (runs (.write sda scl d) .putbit s → exec (.write sda scl d) s = .next { s with
      pinMode := (s.setMode sda (if s.shreg.getLsbD 7 then .released else .drivenLow)).pinMode
      upc := s.upc + 1
      events := s.events ++ [.mode sda (if s.shreg.getLsbD 7 then .released else .drivenLow)] }) ∧
    (runs (.write sda scl d) .shift s → exec (.write sda scl d) s = .next { s with
      shreg := BitVec.ofNat 8 (2 * s.shreg.toNat), upc := s.upc + 1 })

/-- R29: the acceptance of any command sets ACKS to 0, and SAMPLE_ACK of a WRITE sets it to 1 when SDA
reads low and to 0 when it reads high (R113). -/
def Obligations.AcksOfAcceptanceAndSample : Prop :=
  (∀ (i : Instr) (s : State), s.status.busy = false →
    ∃ t, exec i s = .next t ∧ t.acks = false ∧ t.status.busy = true) ∧
  (∀ (sda scl : Pin) (d : Byte) (s : State), runs (.write sda scl d) .sampleAck s →
    exec (.write sda scl d) s = .next { spendForRead sda s with
      acks := (match readLevel sda s with | .low => true | .high => false)
      upc := s.upc + 1
      events := s.events ++ [.sample sda (readLevel sda s)] })

/-- SAMPLE_BIT of a READ shifts the sampled level into ACC (R114). -/
def Obligations.SampleBitOfRead : Prop :=
  ∀ (sda scl : Pin) (a : Bool) (s : State), runs (.read sda scl a) .sampleBit s →
    exec (.read sda scl a) s = .next { spendForRead sda s with
      acc := BitVec.ofNat 8 (2 * s.acc.toNat + if readLevel sda s = .high then 1 else 0)
      upc := s.upc + 1
      events := s.events ++ [.sample sda (readLevel sda s)] }

/-- PUTACK of a READ drives SDA low for A = 1 and releases it for A = 0 (R115). -/
def Obligations.PutackOfRead : Prop :=
  ∀ (sda scl : Pin) (a : Bool) (s : State), runs (.read sda scl a) .putack s →
    exec (.read sda scl a) s = .next { s with
      pinMode := (s.setMode sda (if a then .drivenLow else .released)).pinMode
      upc := s.upc + 1
      events := s.events ++ [.mode sda (if a then .drivenLow else .released)] }

/-- R52: a DrivenLow line reads low; a Released line reads low exactly when another device pulls it;
an Unknown line can read either. -/
def Obligations.LevelOfLine : Prop :=
  ∀ (p : Pin) (s : State),
    (s.mode p = .drivenLow → readLevel p s = .low) ∧
    (s.mode p = .released → readLevel p s = if nextDraw s then .low else .high) ∧
    (s.mode p = .unknown → ∀ v : Level, ∃ d : Bool, ∀ rest : List Bool,
      readLevel p { s with draws := d :: rest } = v)

/-- Every AWAIT is on SCL and stands right after a release of SCL, so in a run it reads a Released
pin; outside INIT every release of SCL is followed by an AWAIT and then a WAIT, so stretching is
honoured at every clock (R104, R168, R178). -/
def Obligations.AwaitAlwaysFollowsRelease : Prop :=
  (∀ (i : Instr) (n : Nat) (l : Line), (sequenceOf i)[n]? = some (.await l) →
    l = .scl ∧ 0 < n ∧ (sequenceOf i)[n - 1]? = some (.rel .scl)) ∧
  (∀ (i : Instr) (n : Nat), (∀ p q, i ≠ .init p q) → (sequenceOf i)[n]? = some (.rel .scl) →
    (sequenceOf i)[n + 1]? = some (.await .scl) ∧ (sequenceOf i)[n + 2]? = some .wait) ∧
  (∀ (s : State) (i : Instr) (l : Line), s.Inv → runs i (.await l) s →
    s.mode (pinOf i l) = .released)

/-- R245: the counts of each command, which fix its steps, its WAITs, its SetMode writes and its line
reads when no AWAIT holds. -/
def Obligations.SequenceCounts : Prop :=
  ∀ (sda scl : Pin) (d : Byte) (a : Bool),
    let waits : List MicroOp → Nat := fun ops => ops.countP (· == .wait)
    let writes : List MicroOp → Nat := fun ops => ops.countP fun op =>
      op == .rel .sda || op == .rel .scl || op == .drv .sda || op == .drv .scl ||
        op == .putbit || op == .putack
    let reads : List MicroOp → Nat := fun ops => ops.countP fun op =>
      op == .await .scl || op == .sampleAck || op == .sampleBit
    let counts : Instr → List Nat := fun i =>
      [(sequenceOf i).length, waits (sequenceOf i), writes (sequenceOf i), reads (sequenceOf i)]
    counts (.init sda scl) = [2, 0, 2, 0] ∧ counts (.start sda scl) = [6, 1, 4, 1] ∧
    counts (.stop sda scl) = [7, 2, 4, 1] ∧ counts (.write sda scl d) = [64, 18, 28, 10] ∧
    counts (.read sda scl a) = [64, 18, 29, 17]

/-! ### Completion of each command (10_state R35) -/

/-- INIT, both its micro-operations (R131, R35). -/
def Obligations.InitReleasesBothAndCompletes : Prop :=
  ∀ (sda scl : Pin) (s : State),
    (runsAt (.init sda scl) 0 s → exec (.init sda scl) s = .next { s with
      pinMode := (s.setMode sda .released).pinMode
      upc := 1, events := s.events ++ [.mode sda .released] }) ∧
    (runsAt (.init sda scl) 1 s → exec (.init sda scl) s = .next { s with
      pinMode := (s.setMode scl .released).pinMode
      upc := 2, status := ⟨.idle, false, .ok, false, 0⟩
      events := s.events ++ [.mode scl .released] ++ [.complete .ok false 0] })

/-- START completes at index 5 with SCL driven low and PHASE Started, STOP at index 6 with SDA released
and PHASE Idle (R134, R141, R35). -/
def Obligations.StartAndStopComplete : Prop :=
  ∀ (sda scl : Pin) (s : State),
    (runsAt (.start sda scl) 5 s → exec (.start sda scl) s = .next { s with
      pinMode := (s.setMode scl .drivenLow).pinMode
      upc := 6, status := ⟨.started, false, .ok, false, 0⟩
      events := s.events ++ [.mode scl .drivenLow] ++ [.complete .ok false 0] }) ∧
    (runsAt (.stop sda scl) 6 s → exec (.stop sda scl) s = .next { s with
      pinMode := (s.setMode sda .released).pinMode
      upc := 7, status := ⟨.idle, false, .ok, false, 0⟩
      events := s.events ++ [.mode sda .released] ++ [.complete .ok false 0] })

/-- WRITE completes at index 63 with ACK = ACKS and DATA = 0x00 (R161, R35). -/
def Obligations.WriteCompletes : Prop :=
  ∀ (sda scl : Pin) (d : Byte) (s : State), runsAt (.write sda scl d) 63 s →
    exec (.write sda scl d) s = .next { s with
      pinMode := (s.setMode scl .drivenLow).pinMode
      upc := 64
      status := ⟨(match s.status.phase with
        | .idle => .idle | .started => .addressPhase | .addressPhase => .dataPhase
        | .dataPhase => .dataPhase), false, .ok, s.acks, 0⟩
      events := s.events ++ [.mode scl .drivenLow] ++ [.complete .ok s.acks 0] }

/-- READ completes at index 63 with ACK = 0 and DATA = ACC (R171, R35). -/
def Obligations.ReadCompletes : Prop :=
  ∀ (sda scl : Pin) (a : Bool) (s : State), runsAt (.read sda scl a) 63 s →
    exec (.read sda scl a) s = .next { s with
      pinMode := (s.setMode sda .released).pinMode
      upc := 64
      status := ⟨(match s.status.phase with
        | .idle => .idle | .started => .dataPhase | .addressPhase => .dataPhase
        | .dataPhase => .dataPhase), false, .ok, false, s.acc⟩
      events := s.events ++ [.mode sda .released] ++ [.complete .ok false s.acc] }

/-! ### Whole commands, from acceptance to completion -/

/-- START and STOP, issued to an idle machine with no stretching: the events of L1-2 in order, the
driver modes of R146, and PHASE of R34, from every state and phase (R134, R136, R141, R143). -/
def Obligations.StartAndStopRuns : Prop :=
  ∀ (sda scl : Pin) (s : State) (rest : List HostAction) (ds : List Bool),
    s.status.busy = false → leavesTurns rest = true → s.draws = false :: ds →
    (s.host = .writeCmd (encode (.start sda scl)) :: rest →
      ∃ t, runSteps 7 s = .next t ∧
        t.status = ⟨.started, false, .ok, false, 0⟩ ∧ t.upc = 6 ∧ t.draws = ds ∧ t.host = rest ∧
        t.mode sda = .drivenLow ∧ t.mode scl = .drivenLow ∧
        t.events = s.events ++ [.accept (encode (.start sda scl)), .mode sda .released,
          .mode scl .released, .sample scl .high, .wait, .mode sda .drivenLow,
          .mode scl .drivenLow, .complete .ok false 0]) ∧
    (s.host = .writeCmd (encode (.stop sda scl)) :: rest →
      ∃ t, runSteps 8 s = .next t ∧
        t.status = ⟨.idle, false, .ok, false, 0⟩ ∧ t.upc = 7 ∧ t.draws = ds ∧ t.host = rest ∧
        t.mode sda = .released ∧ t.mode scl = .released ∧
        t.events = s.events ++ [.accept (encode (.stop sda scl)), .mode scl .drivenLow,
          .mode sda .drivenLow, .wait, .mode scl .released, .sample scl .high, .wait,
          .mode sda .released, .complete .ok false 0])

/-- WRITE from acceptance to completion with no stretching: 65 steps, and ACK is 1 exactly when SDA
was pulled low at the one sample of index 62, whatever the byte and the state before (R161, R165,
R245, R34, R146). -/
def Obligations.WriteRunReportsAcknowledge : Prop :=
  ∀ (sda scl : Pin) (d : Byte) (pulled : Bool) (s : State) (rest : List HostAction)
    (ds : List Bool), s.status.busy = false → leavesTurns rest = true →
    s.host = .writeCmd (encode (.write sda scl d)) :: rest →
    s.draws = List.replicate 9 false ++ pulled :: ds →
    ∃ t, runSteps 65 s = .next t ∧
      t.status = ⟨(match s.status.phase with
        | .idle => .idle | .started => .addressPhase | .addressPhase => .dataPhase
        | .dataPhase => .dataPhase), false, .ok, pulled, 0⟩ ∧
      t.upc = 64 ∧ t.shreg = 0 ∧ t.acc = s.acc ∧ t.host = rest ∧ t.draws = ds ∧
      t.drawCount = s.drawCount ∧
      t.mode scl = .drivenLow ∧ (sda ≠ scl → t.mode sda = .released) ∧
      (∀ p, p ≠ sda → p ≠ scl → t.mode p = s.mode p) ∧
      ∃ es, t.events = s.events ++ es ∧ es.countP isModeEvent = 28 ∧
        es.countP isSampleEvent = 10 ∧ es.countP isWaitEvent = 18 ∧
        minDurationUs es = 18 * Config.tHalfUs

/-- READ from acceptance to completion with no stretching: 65 steps, and DATA is the byte whose bit
7 - k was on SDA at the k-th sample, whatever ACC and the driver modes held before (R171, R172, R176,
R245, R34, R146). `b` is the byte the slave sends: it pulls SDA low where its bit is 0. -/
def Obligations.ReadRunAssemblesByte : Prop :=
  ∀ (sda scl : Pin) (a : Bool) (b : Byte) (s : State) (rest : List HostAction)
    (ds : List Bool), s.status.busy = false → leavesTurns rest = true →
    s.host = .writeCmd (encode (.read sda scl a)) :: rest →
    s.draws = [false, !b.getLsbD 7, false, !b.getLsbD 6, false, !b.getLsbD 5, false, !b.getLsbD 4,
      false, !b.getLsbD 3, false, !b.getLsbD 2, false, !b.getLsbD 1, false, !b.getLsbD 0,
      false] ++ ds →
    ∃ t, runSteps 65 s = .next t ∧
      t.status = ⟨(match s.status.phase with
        | .idle => .idle | .started => .dataPhase | .addressPhase => .dataPhase
        | .dataPhase => .dataPhase), false, .ok, false, b⟩ ∧
      t.upc = 64 ∧ t.acc = b ∧ t.shreg = s.shreg ∧ t.host = rest ∧ t.draws = ds ∧
      t.drawCount = s.drawCount ∧
      t.mode sda = .released ∧ (sda ≠ scl → t.mode scl = .drivenLow) ∧
      (∀ p, p ≠ sda → p ≠ scl → t.mode p = s.mode p) ∧
      ∃ es, t.events = s.events ++ es ∧ es.countP isModeEvent = 29 ∧
        es.countP isSampleEvent = 17 ∧ es.countP isWaitEvent = 18 ∧
        minDurationUs es = 18 * Config.tHalfUs

/-! ### Clock stretching (40_line_driver R106, R107; 60_exceptions R204) -/

/-- A slave that holds SCL low for k reads lets the AWAIT advance on read k + 1, whatever the limit
above k (R106). -/
def Obligations.AwaitAdvancesAfterStretch : Prop :=
  ∀ (k : Nat) (i : Instr) (s : State) (ds : List Bool), s.Inv → leavesTurns s.host = true →
    runs i (.await .scl) s → s.polls = 0 →
    s.draws = List.replicate k true ++ false :: ds →
    (∀ n, s.stretchLimit = .bounded n → k < n) →
    runSteps (k + 1) s = .next { s with
      polls := 0, upc := s.upc + 1, draws := ds
      events := s.events ++ List.replicate k (.sample i.scl .low) ++ [.sample i.scl .high] }

/-- R107: with the limit NONE and a slave that keeps SCL low, the command never ends, whether the host
has no action left, waits for BUSY = 0, or passes and reads STATUS. After any number k of steps BUSY is
1 and UPC where it was. Each of the k steps was a poll or a read of STATUS: j polls, and at most as many
reads as the host had before its first wait. A command the host issues then is refused. -/
def Obligations.UnboundedAwaitHangs : Prop :=
  ∀ (k : Nat) (i : Instr) (s : State) (ds : List Bool), s.Inv → onlyWatches s.host = true →
    runs i (.await .scl) s → s.stretchLimit = .unbounded →
    s.draws = List.replicate k true ++ ds →
    ∃ (t : State) (j m : Nat), runSteps k s = .next t ∧
      j ≤ k ∧ k ≤ j + (beforeWait s.host).countP (· == .readStatus) ∧
      m ≤ (beforeWait s.host).length ∧
      t = { s with
        polls := s.polls + j, draws := List.replicate (k - j) true ++ ds
        host := s.host.drop m
        statusReads := s.statusReads ++ List.replicate (k - j) (statusWord s.status)
        events := s.events ++ List.replicate j (.sample i.scl .low) } ∧
      t.status.busy = true ∧ t.upc = s.upc ∧
      ∀ (w : Word) (rest : List HostAction),
        step { t with host := .writeCmd w :: rest } = .refused .cmdWhileBusy

/-- With the limit N, N low reads in a row end the command with TIMEOUT on the N-th (R106, R204). -/
def Obligations.BoundedAwaitTimesOut : Prop :=
  ∀ (n : Nat) (i : Instr) (s : State) (ds : List Bool), s.Inv → leavesTurns s.host = true →
    runs i (.await .scl) s → s.polls = 0 → s.stretchLimit = .bounded n →
    s.draws = List.replicate n true ++ ds →
    runSteps n s = .next { s with
      polls := 0, draws := ds, status := ⟨s.status.phase, false, .timeout, false, 0⟩
      events := s.events ++ List.replicate n (.sample i.scl .low) ++ [.abort .timeout] }

/-! ### Invariants of every run -/

/-- The machine's reset state satisfies the invariant. -/
def Obligations.ResetSatisfiesInvariant : Prop := State.reset.Inv

/-- Every step of every agent keeps the invariant, from every state that has it: a legal command in
CUR while BUSY = 1, UPC inside its sequence, POLLS below the limit, the SDA and SCL drivers and SHREG
as the command has set them (R26, R27, R30, R104, R146, R162). And in such a state no step faults: the
two faults stand for states no run reaches (log 8). -/
def Obligations.StepKeepsInvariant : Prop :=
  ∀ s : State, s.Inv → (∀ f, step s ≠ .fault f) ∧ ∀ t, step s = .next t → t.Inv

/-- A host that never writes CMD while BUSY can be 1 (R235) is never refused and never faults: every
step answers a next state, and the rest of its actions is disciplined there too. A host that waits
for BUSY = 0 after every command is such a host. -/
def Obligations.DisciplinedHostNeverRefused : Prop :=
  (∀ s : State, s.Inv → disciplined s.status.busy s.host = true →
    ∃ t, step s = .next t ∧ t.Inv ∧ disciplined t.status.busy t.host = true) ∧
  (∀ ws : List Word, disciplined false (blockingActions ws) = true)

/-- R23: but for a reset, every step leaves every pin in the mode the one micro-operation it runs writes
to this pin, and in the mode it had where that micro-operation writes another pin or none, or where the
step runs none. So pins keep their modes between commands and through commands that do not name them,
and no command restores a pin. -/
def Obligations.PinModesPersist : Prop :=
  ∀ (s t : State) (p : Pin), step s = .next t → s.host.head? ≠ some .reset →
    (s.status.busy = true → s.host.head? ≠ some .readStatus →
      ∃ i op, decode s.cur = .ok i ∧ (sequenceOf i)[s.upc.toNat]? = some op ∧
        t.mode p =
          match writtenLine i s op with
          | some (l, m) => if pinOf i l = p then m else s.mode p
          | none => s.mode p) ∧
    (s.status.busy = false ∨ s.host.head? = some .readStatus → t.mode p = s.mode p)

/-- R27: SHREG is loaded with CUR[7:0] when a WRITE is accepted. In each of the eight clocks of the
WRITE bit loop, and nowhere else, a PUTBIT puts bit 7 on SDA and a SHIFT after it shifts SHREG left by
one. Nothing else but a reset writes it; no other command reads it. -/
def Obligations.ShregBelongsToWrite : Prop :=
  (∀ (s t : State) (w : Word) (rest : List HostAction), s.host = .writeCmd w :: rest →
    step s = .next t → legalWord w = true → opField w = 4 →
    t.shreg = dataField w ∧ t.shreg = dataField t.cur) ∧
  (∀ (sda scl : Pin) (d : Byte) (s : State), runs (.write sda scl d) .putbit s →
    ∃ t, exec (.write sda scl d) s = .next t ∧
      t.mode sda = if s.shreg.getLsbD 7 then .released else .drivenLow) ∧
  (∀ (sda scl : Pin) (d : Byte) (s : State), runs (.write sda scl d) .shift s →
    ∃ t, exec (.write sda scl d) s = .next t ∧
      t.shreg = BitVec.ofNat 8 (2 * s.shreg.toNat)) ∧
  (∀ (sda scl : Pin) (d : Byte) (n : Nat),
    ((sequenceOf (.write sda scl d))[n]? = some .putbit ↔ ∃ k, k < 8 ∧ n = 7 * k + 1) ∧
    ((sequenceOf (.write sda scl d))[n]? = some .shift ↔ ∃ k, k < 8 ∧ n = 7 * k + 6)) ∧
  (∀ s t : State, step s = .next t → s.host.head? ≠ some .reset →
    t.shreg = s.shreg ∨
    (∃ w rest, s.host = .writeCmd w :: rest ∧ legalWord w = true ∧ opField w = 4) ∨
    (s.status.busy = true ∧ ∃ sda scl d, decode s.cur = .ok (.write sda scl d) ∧
      (sequenceOf (.write sda scl d))[s.upc.toNat]? = some .shift ∧
      t.shreg = BitVec.ofNat 8 (2 * s.shreg.toNat))) ∧
  (∀ (i : Instr) (s t : State) (v : Byte), i.opcode ≠ 4 → exec i s = .next t →
    exec i { s with shreg := v } = .next { t with shreg := v })

/-- R217: the platform calls a step of a command in flight makes: REL is `setPinInputPullup`, DRV is
`setPinOutputLow`, a line read is `readPin` and WAIT is `delayMicroseconds` of the half period, each on
the platform's pin for the line; PUTBIT and PUTACK make the call of the mode they set, and SHIFT none. -/
def Obligations.PlatformCallsOfMicroOperations : Prop :=
  ∀ (i : Instr) (op : MicroOp) (s t : State), runs i op s → exec i s = .next t →
    ∃ es, t.events = s.events ++ es ∧ es.filterMap platformCall =
      match op with
      | .rel l => [.setPinInputPullup (Config.pinMap (pinOf i l))]
      | .drv l => [.setPinOutputLow (Config.pinMap (pinOf i l))]
      | .await l => [.readPin (Config.pinMap (pinOf i l)) (readLevel (pinOf i l) s)]
      | .wait => [.delayMicroseconds Config.tHalfUs]
      | .putbit =>
        if s.shreg.getLsbD 7 then [.setPinInputPullup (Config.pinMap i.sda)]
        else [.setPinOutputLow (Config.pinMap i.sda)]
      | .shift => []
      | .sampleAck => [.readPin (Config.pinMap i.sda) (readLevel i.sda s)]
      | .sampleBit => [.readPin (Config.pinMap i.sda) (readLevel i.sda s)]
      | .putack =>
        if i.ackBit then [.setPinOutputLow (Config.pinMap i.sda)]
        else [.setPinInputPullup (Config.pinMap i.sda)]

/-- R22: only a reset makes a pin Unknown. -/
def Obligations.OnlyResetMakesUnknown : Prop :=
  ∀ (s t : State) (p : Pin), step s = .next t → s.host.head? ≠ some .reset →
    t.mode p = .unknown → s.mode p = .unknown

/-- The parameters are fixed while the machine runs, a reset included (R233). -/
def Obligations.StretchLimitFixed : Prop :=
  ∀ s t : State, step s = .next t → t.stretchLimit = s.stretchLimit

/-- Every step appends to the record and takes nothing from it, at most two events a step (R65). -/
def Obligations.RecordOnlyGrows : Prop :=
  ∀ s t : State, step s = .next t → ∃ es, t.events = s.events ++ es ∧ es.length ≤ 2

/-! ### Lines between and during commands (41_bus_conditions.md, 42_byte_transfer.md) -/

/-- R146: the driver modes a completed command leaves, for two different pins. With one pin in both
fields the last write to it counts (20_memory R57). -/
def Obligations.PinModesAfterCompletion : Prop :=
  ∀ (s t : State) (i : Instr), s.Inv → s.status.busy = true → decode s.cur = .ok i →
    step s = .next t → s.host.head? ≠ some .reset →
    t.status.busy = false → t.status.st = .ok →
    (i.sda ≠ i.scl → (t.mode i.sda, t.mode i.scl) =
      match i with
      | .init _ _ => (.released, .released)
      | .start _ _ => (.drivenLow, .drivenLow)
      | .stop _ _ => (.released, .released)
      | .write _ _ _ => (.released, .drivenLow)
      | .read _ _ _ => (.released, .drivenLow)) ∧
    (i.sda = i.scl → t.mode i.sda =
      match i with
      | .init _ _ => .released
      | .start _ _ => .drivenLow
      | .stop _ _ => .released
      | .write _ _ _ => .drivenLow
      | .read _ _ _ => .released)

/-- R205: the driver modes a TIMEOUT leaves. -/
def Obligations.PinModesAfterTimeout : Prop :=
  ∀ (s t : State) (i : Instr), s.Inv → s.status.busy = true → decode s.cur = .ok i →
    step s = .next t → s.host.head? ≠ some .reset →
    t.status.busy = false → t.status.st = .timeout →
    t.mode i.scl = .released ∧
    (i.sda ≠ i.scl → t.mode i.sda =
      match i with
      | .init _ _ => t.mode i.sda
      | .start _ _ => .released
      | .stop _ _ => .drivenLow
      | .write _ _ d =>
        if s.upc.toNat = 60 then .released
        else if d.getLsbD (7 - s.upc.toNat / 7) then .released else .drivenLow
      | .read _ _ a =>
        if s.upc.toNat = 60 then (if a then .drivenLow else .released) else .released)

/-- R162: clock k + 1 of a WRITE carries bit 7 - k of its byte. -/
def Obligations.WriteSendsMostSignificantBitFirst : Prop :=
  ∀ (sda scl : Pin) (d : Byte) (k : Nat) (s : State), s.Inv → k < 8 →
    runsAt (.write sda scl d) (7 * k + 1) s →
    s.shreg.getLsbD 7 = d.getLsbD (7 - k) ∧
    ∃ t, exec (.write sda scl d) s = .next t ∧
      t.mode sda = if d.getLsbD (7 - k) then .released else .drivenLow

/-- The SDA driver changes only while MWSEQ holds SCL low, but at INIT index 0, START indices 0 and 4
and STOP index 6 (R130). -/
def Obligations.SdaChangesOnlyWhileSclLow : Prop :=
  ∀ (s t : State) (i : Instr), s.Inv → s.status.busy = true → decode s.cur = .ok i →
    i.sda ≠ i.scl → step s = .next t → s.host.head? ≠ some .reset →
    t.mode i.sda ≠ s.mode i.sda →
    s.mode i.scl = .drivenLow ∨
    (match i with
      | .init _ _ => s.upc.toNat = 0
      | .start _ _ => s.upc.toNat = 0 ∨ s.upc.toNat = 4
      | .stop _ _ => s.upc.toNat = 6
      | .write _ _ _ => False
      | .read _ _ _ => False)

/-- R135: START makes a START condition exactly when both lines are high just before index 4. -/
def Obligations.StartConditionExactly : Prop :=
  ∀ (sda scl : Pin) (s t : State) (draw : Pin → Bool), s.Inv → sda ≠ scl →
    runsAt (.start sda scl) 4 s → exec (.start sda scl) s = .next t →
    (isStartCondition (levelsOf s.pinMode sda scl draw) (levelsOf t.pinMode sda scl draw) = true ↔
      levelsOf s.pinMode sda scl draw = (.high, .high))

/-- R142: STOP makes a STOP condition exactly when SCL is high just before index 6 and no device
holds SDA low at it. -/
def Obligations.StopConditionExactly : Prop :=
  ∀ (sda scl : Pin) (s t : State) (draw : Pin → Bool), s.Inv → sda ≠ scl →
    runsAt (.stop sda scl) 6 s → exec (.stop sda scl) s = .next t →
    (isStopCondition (levelsOf s.pinMode sda scl draw) (levelsOf t.pinMode sda scl draw) = true ↔
      (levelsOf s.pinMode sda scl draw).2 = .high ∧ draw sda = false)

/-- WRITE and READ make neither condition at any micro-operation, for any levels the other devices
give, as long as those do not change within the step (R163, R172). -/
def Obligations.TransfersMakeNoCondition : Prop :=
  ∀ (s t : State) (i : Instr) (op : MicroOp) (draw : Pin → Bool), s.Inv → i.sda ≠ i.scl →
    (i.opcode = 4 ∨ i.opcode = 5) → runs i op s → exec i s = .next t →
    isStartCondition (levelsOf s.pinMode i.sda i.scl draw) (levelsOf t.pinMode i.sda i.scl draw) = false ∧
    isStopCondition (levelsOf s.pinMode i.sda i.scl draw) (levelsOf t.pinMode i.sda i.scl draw) = false

/-- On pins that are not Unknown INIT never makes a START condition, and none of either kind when it
starts with both lines driven low (R132). On an Unknown pin, as at the first INIT after a reset, the
level before is unconstrained, and nothing is claimed. -/
def Obligations.InitMakesNoStart : Prop :=
  ∀ (sda scl : Pin) (s t : State) (op : MicroOp) (draw : Pin → Bool),
    runs (.init sda scl) op s → exec (.init sda scl) s = .next t →
    (s.mode sda ≠ .unknown → s.mode scl ≠ .unknown →
      isStartCondition (levelsOf s.pinMode sda scl draw) (levelsOf t.pinMode sda scl draw) = false) ∧
    (s.upc = 0 → s.mode sda = .drivenLow → s.mode scl = .drivenLow →
      isStopCondition (levelsOf s.pinMode sda scl draw) (levelsOf t.pinMode sda scl draw) = false) ∧
    (s.upc = 1 → s.mode sda = .released → s.mode scl = .drivenLow →
      isStopCondition (levelsOf s.pinMode sda scl draw) (levelsOf t.pinMode sda scl draw) = false)

/-- Over all commands: only START index 4 makes a START condition, and only STOP index 6 a STOP
condition, but for index 0 of a START or an INIT that finds SDA driven low with SCL high (R130, R137,
R143, R145). -/
def Obligations.OnlyTheseStepsMakeConditions : Prop :=
  ∀ (s t : State) (i : Instr) (op : MicroOp) (draw : Pin → Bool), s.Inv → i.sda ≠ i.scl →
    s.mode i.sda ≠ .unknown → s.mode i.scl ≠ .unknown → runs i op s → exec i s = .next t →
    (isStartCondition (levelsOf s.pinMode i.sda i.scl draw) (levelsOf t.pinMode i.sda i.scl draw) = true →
      i.opcode = 2 ∧ s.upc = 4) ∧
    (isStopCondition (levelsOf s.pinMode i.sda i.scl draw) (levelsOf t.pinMode i.sda i.scl draw) = true →
      (i.opcode = 3 ∧ s.upc = 6) ∨
      ((i.opcode = 1 ∨ i.opcode = 2) ∧ s.upc = 0 ∧ s.mode i.sda = .drivenLow))

/-! ### The assembler (30_encoding R82 to R88) -/

/-- The pseudo-commands expand as R84 to R87 say, whatever the quantity. -/
def Obligations.PseudoCommandExpansions : Prop :=
  ∀ (h : HandleOperand) (v : Byte), handleValue h = .ok v →
    expand (.begin_ h) = .ok [.init (sdaOf v) (sclOf v)] ∧
    expand (.endTx h) = .ok [.stop (sdaOf v) (sclOf v)] ∧
    ∀ addr qty : Nat, addr ≤ 127 →
      expand (.beginTx h addr) = .ok [.start (sdaOf v) (sclOf v),
        .write (sdaOf v) (sclOf v) (BitVec.ofNat 8 (2 * addr))] ∧
      expand (.requestFrom h addr qty) = .ok [.start (sdaOf v) (sclOf v),
        .write (sdaOf v) (sclOf v) (BitVec.ofNat 8 (2 * addr + 1))]

/-- The assembler refuses a pin over 15 in every line, and an address over 127 (R83, R88). The ground it
names is the model's choice, log 22. -/
def Obligations.AssemblerRefusesLargeOperands : Prop :=
  (∀ (l : AsmLine) (p q : Nat), lineHandle l = .pins p q → 15 < p ∨ 15 < q →
    expand l = .error .pinTooLarge) ∧
  (∀ (h : HandleOperand) (v : Byte) (addr qty : Nat), handleValue h = .ok v → 127 < addr →
    expand (.beginTx h addr) = .error .addressTooLarge ∧
    expand (.requestFrom h addr qty) = .error .addressTooLarge)

/-- Every word the assembler produces is legal, carries the line's handle in bits 23:16, and decodes
to the command it was assembled from (R82, R83). -/
def Obligations.AssembledWordsAreLegal : Prop :=
  ∀ (l : AsmLine) (ws : List Word), assembleLine l = .ok ws →
    ∃ v is, handleValue (lineHandle l) = .ok v ∧ expand l = .ok is ∧ ws ≠ [] ∧
      ws.map decode = is.map .ok ∧ ∀ w ∈ ws, legalWord w = true ∧ handleField w = v
end

