-- ==== Sys2Proof/Laws/Decode.lean ====
section
/-! SUPPORT. The fields of an encoded command, and a legal word from its fields. -/

namespace Sys2Proof

theorem commandWord_getLsbD (p q : Pin) (op : BitVec 4) (a : Bool) (d : Byte) (i : Nat) :
    (commandWord p q op a d).getLsbD i =
      if i < 8 then d.getLsbD i else if i = 8 then a else if i < 12 then false
      else if i < 16 then op.getLsbD (i - 12) else if i < 20 then q.getLsbD (i - 16)
      else p.getLsbD (i - 20) := by
  have h : (commandWord p q op a d).getLsbD i =
    (p ++ q ++ op ++ 0#3 ++ BitVec.ofBool a ++ d).getLsbD i := rfl
  rw [h]
  clear h
  simp only [BitVec.getLsbD_append, BitVec.getLsbD_ofBool, BitVec.getLsbD_zero]
  simp only [Nat.sub_sub, Nat.reduceAdd]
  split_ifs <;> first | rfl | omega | simp_all

@[simp] theorem sdaField_commandWord (p q : Pin) (op : BitVec 4) (a : Bool) (d : Byte) :
    sdaField (commandWord p q op a d) = p := by
  refine BitVec.eq_of_getLsbD_eq fun i hi => ?_
  rw [sdaField, BitVec.getLsbD_extractLsb', commandWord_getLsbD]
  interval_cases i <;> simp

@[simp] theorem sclField_commandWord (p q : Pin) (op : BitVec 4) (a : Bool) (d : Byte) :
    sclField (commandWord p q op a d) = q := by
  refine BitVec.eq_of_getLsbD_eq fun i hi => ?_
  rw [sclField, BitVec.getLsbD_extractLsb', commandWord_getLsbD]
  interval_cases i <;> simp

@[simp] theorem opField_commandWord (p q : Pin) (op : BitVec 4) (a : Bool) (d : Byte) :
    opField (commandWord p q op a d) = op := by
  refine BitVec.eq_of_getLsbD_eq fun i hi => ?_
  rw [opField, BitVec.getLsbD_extractLsb', commandWord_getLsbD]
  interval_cases i <;> simp

@[simp] theorem rsvField_commandWord (p q : Pin) (op : BitVec 4) (a : Bool) (d : Byte) :
    rsvField (commandWord p q op a d) = 0 := by
  refine BitVec.eq_of_getLsbD_eq fun i hi => ?_
  rw [rsvField, BitVec.getLsbD_extractLsb', commandWord_getLsbD]
  interval_cases i <;> simp

@[simp] theorem ackField_commandWord (p q : Pin) (op : BitVec 4) (a : Bool) (d : Byte) :
    ackField (commandWord p q op a d) = a := by
  rw [ackField, commandWord_getLsbD]
  simp

@[simp] theorem dataField_commandWord (p q : Pin) (op : BitVec 4) (a : Bool) (d : Byte) :
    dataField (commandWord p q op a d) = d := by
  refine BitVec.eq_of_getLsbD_eq fun i hi => ?_
  rw [dataField, BitVec.getLsbD_extractLsb', commandWord_getLsbD]
  simp [hi]

/-- A word with RSV = 0 is put together again from its fields. -/
theorem commandWord_fields (w : Word) (h : rsvField w = 0) :
    commandWord (sdaField w) (sclField w) (opField w) (ackField w) (dataField w) = w := by
  have bit : ∀ k, k < 3 → w.getLsbD (9 + k) = false := fun k hk => by
    simpa [rsvField, BitVec.getLsbD_extractLsb', hk] using congrArg (·.getLsbD k) h
  have h9 := bit 0 (by decide)
  have h10 := bit 1 (by decide)
  have h11 := bit 2 (by decide)
  refine BitVec.eq_of_getLsbD_eq fun i hi => ?_
  rw [commandWord_getLsbD]
  simp only [sdaField, sclField, opField, ackField, dataField, BitVec.getLsbD_extractLsb']
  interval_cases i <;> simp_all

@[simp] theorem sdaField_encode (i : Instr) : sdaField (encode i) = i.sda := by
  cases i <;> simp [encode, Instr.sda]

@[simp] theorem sclField_encode (i : Instr) : sclField (encode i) = i.scl := by
  cases i <;> simp [encode, Instr.scl]

@[simp] theorem opField_encode (i : Instr) : opField (encode i) = i.opcode := by
  cases i <;> simp [encode, Instr.opcode]

@[simp] theorem rsvField_encode (i : Instr) : rsvField (encode i) = 0 := by
  cases i <;> simp [encode]

@[simp] theorem ackField_encode (i : Instr) : ackField (encode i) = i.ackBit := by
  cases i <;> simp [encode, Instr.ackBit]

@[simp] theorem dataField_encode (i : Instr) : dataField (encode i) = i.dataByte := by
  cases i <;> simp [encode, Instr.dataByte]

/-- The word of a command from its fields. -/
theorem encode_eq (i : Instr) :
    encode i = commandWord i.sda i.scl i.opcode i.ackBit i.dataByte := by
  cases i <;> rfl

/-- What a word that decodes carries in each field. -/
theorem decode_fields {w : Word} {i : Instr} (h : decode w = .ok i) :
    rsvField w = 0 ∧ sdaField w = i.sda ∧ sclField w = i.scl ∧ opField w = i.opcode ∧
      ackField w = i.ackBit ∧ dataField w = i.dataByte := by
  have op : ∀ k, (opField w).toNat = k → opField w = BitVec.ofNat 4 k := fun k hk => by
    rw [← hk]; simp
  have bare : ∀ j : Instr, decodeBare w j = .ok i → i = j ∧ ackField w = false ∧
      dataField w = 0 := by
    intro j hj
    unfold decodeBare at hj
    split at hj
    · cases hj
    · next ha =>
      split at hj
      · next hd => injection hj with hj; exact ⟨hj.symm, by simpa using ha, hd⟩
      · cases hj
  unfold decode at h
  split at h
  · next hr =>
    refine ⟨hr, ?_⟩
    split at h
    · next ho => obtain ⟨rfl, ha, hd⟩ := bare _ h; exact ⟨rfl, rfl, op _ ho, ha, hd⟩
    · next ho => obtain ⟨rfl, ha, hd⟩ := bare _ h; exact ⟨rfl, rfl, op _ ho, ha, hd⟩
    · next ho => obtain ⟨rfl, ha, hd⟩ := bare _ h; exact ⟨rfl, rfl, op _ ho, ha, hd⟩
    · next ho =>
      unfold decodeWrite at h
      split at h
      · cases h
      · next ha =>
        injection h with h
        subst h
        exact ⟨rfl, rfl, op _ ho, eq_false_of_ne_true ha, rfl⟩
    · next ho =>
      unfold decodeRead at h
      split at h
      · next hd =>
        injection h with h
        subst h
        exact ⟨rfl, rfl, op _ ho, rfl, hd⟩
      · cases h
    · cases h
  · cases h

/-- Every command is well formed: its operands are held at the width of their fields. -/
theorem Instr.wellFormed_all (i : Instr) : i.wellFormed = true := by
  cases i <;> simp [Instr.wellFormed, Instr.opcode, Instr.ackBit, Instr.dataByte, fieldsLegal,
    opDefined, rsvClear, ackAllowed, dataAllowed]

end Sys2Proof
end

