-- ==== Sys2Proof/Laws/State.lean ====
section
/-! SUPPORT. One lemma per field per update of State, so that no proof unfolds an update, and the
reads of the pin-driver file after its writes. -/

namespace Sys2Proof.Machine

/-! ### record -/

@[simp] theorem record_pinMode (s : State) (e : Event) : (s.record e).pinMode = s.pinMode := rfl

@[simp] theorem record_cur (s : State) (e : Event) : (s.record e).cur = s.cur := rfl

@[simp] theorem record_upc (s : State) (e : Event) : (s.record e).upc = s.upc := rfl

@[simp] theorem record_shreg (s : State) (e : Event) : (s.record e).shreg = s.shreg := rfl

@[simp] theorem record_acc (s : State) (e : Event) : (s.record e).acc = s.acc := rfl

@[simp] theorem record_acks (s : State) (e : Event) : (s.record e).acks = s.acks := rfl

@[simp] theorem record_polls (s : State) (e : Event) : (s.record e).polls = s.polls := rfl

@[simp] theorem record_status (s : State) (e : Event) : (s.record e).status = s.status := rfl

@[simp] theorem record_stretchLimit (s : State) (e : Event) :
    (s.record e).stretchLimit = s.stretchLimit := rfl

@[simp] theorem record_host (s : State) (e : Event) : (s.record e).host = s.host := rfl

@[simp] theorem record_statusReads (s : State) (e : Event) :
    (s.record e).statusReads = s.statusReads := rfl

@[simp] theorem record_draws (s : State) (e : Event) : (s.record e).draws = s.draws := rfl

@[simp] theorem record_drawCount (s : State) (e : Event) :
    (s.record e).drawCount = s.drawCount := rfl

@[simp] theorem record_events (s : State) (e : Event) : (s.record e).events = s.events ++ [e] := rfl

/-! ### setMode -/

@[simp] theorem setMode_pinMode (s : State) (p : Pin) (m : PinMode) :
    (s.setMode p m).pinMode = s.pinMode.set p.toNat m p.isLt := rfl

@[simp] theorem setMode_cur (s : State) (p : Pin) (m : PinMode) : (s.setMode p m).cur = s.cur := rfl

@[simp] theorem setMode_upc (s : State) (p : Pin) (m : PinMode) : (s.setMode p m).upc = s.upc := rfl

@[simp] theorem setMode_shreg (s : State) (p : Pin) (m : PinMode) :
    (s.setMode p m).shreg = s.shreg := rfl

@[simp] theorem setMode_acc (s : State) (p : Pin) (m : PinMode) : (s.setMode p m).acc = s.acc := rfl

@[simp] theorem setMode_acks (s : State) (p : Pin) (m : PinMode) :
    (s.setMode p m).acks = s.acks := rfl

@[simp] theorem setMode_polls (s : State) (p : Pin) (m : PinMode) :
    (s.setMode p m).polls = s.polls := rfl

@[simp] theorem setMode_status (s : State) (p : Pin) (m : PinMode) :
    (s.setMode p m).status = s.status := rfl

@[simp] theorem setMode_stretchLimit (s : State) (p : Pin) (m : PinMode) :
    (s.setMode p m).stretchLimit = s.stretchLimit := rfl

@[simp] theorem setMode_host (s : State) (p : Pin) (m : PinMode) :
    (s.setMode p m).host = s.host := rfl

@[simp] theorem setMode_statusReads (s : State) (p : Pin) (m : PinMode) :
    (s.setMode p m).statusReads = s.statusReads := rfl

@[simp] theorem setMode_draws (s : State) (p : Pin) (m : PinMode) :
    (s.setMode p m).draws = s.draws := rfl

@[simp] theorem setMode_drawCount (s : State) (p : Pin) (m : PinMode) :
    (s.setMode p m).drawCount = s.drawCount := rfl

@[simp] theorem setMode_events (s : State) (p : Pin) (m : PinMode) :
    (s.setMode p m).events = s.events := rfl

/-! ### setModeOp -/

@[simp] theorem setModeOp_pinMode (p : Pin) (m : PinMode) (s : State) :
    (setModeOp p m s).pinMode = s.pinMode.set p.toNat m p.isLt := rfl

@[simp] theorem setModeOp_cur (p : Pin) (m : PinMode) (s : State) :
    (setModeOp p m s).cur = s.cur := rfl

@[simp] theorem setModeOp_upc (p : Pin) (m : PinMode) (s : State) :
    (setModeOp p m s).upc = s.upc := rfl

@[simp] theorem setModeOp_shreg (p : Pin) (m : PinMode) (s : State) :
    (setModeOp p m s).shreg = s.shreg := rfl

@[simp] theorem setModeOp_acc (p : Pin) (m : PinMode) (s : State) :
    (setModeOp p m s).acc = s.acc := rfl

@[simp] theorem setModeOp_acks (p : Pin) (m : PinMode) (s : State) :
    (setModeOp p m s).acks = s.acks := rfl

@[simp] theorem setModeOp_polls (p : Pin) (m : PinMode) (s : State) :
    (setModeOp p m s).polls = s.polls := rfl

@[simp] theorem setModeOp_status (p : Pin) (m : PinMode) (s : State) :
    (setModeOp p m s).status = s.status := rfl

@[simp] theorem setModeOp_stretchLimit (p : Pin) (m : PinMode) (s : State) :
    (setModeOp p m s).stretchLimit = s.stretchLimit := rfl

@[simp] theorem setModeOp_host (p : Pin) (m : PinMode) (s : State) :
    (setModeOp p m s).host = s.host := rfl

@[simp] theorem setModeOp_statusReads (p : Pin) (m : PinMode) (s : State) :
    (setModeOp p m s).statusReads = s.statusReads := rfl

@[simp] theorem setModeOp_draws (p : Pin) (m : PinMode) (s : State) :
    (setModeOp p m s).draws = s.draws := rfl

@[simp] theorem setModeOp_drawCount (p : Pin) (m : PinMode) (s : State) :
    (setModeOp p m s).drawCount = s.drawCount := rfl

@[simp] theorem setModeOp_events (p : Pin) (m : PinMode) (s : State) :
    (setModeOp p m s).events = s.events ++ [.mode p m] := rfl

/-! ### spendDraw -/

@[simp] theorem spendDraw_pinMode (s : State) : (spendDraw s).pinMode = s.pinMode := rfl

@[simp] theorem spendDraw_cur (s : State) : (spendDraw s).cur = s.cur := rfl

@[simp] theorem spendDraw_upc (s : State) : (spendDraw s).upc = s.upc := rfl

@[simp] theorem spendDraw_shreg (s : State) : (spendDraw s).shreg = s.shreg := rfl

@[simp] theorem spendDraw_acc (s : State) : (spendDraw s).acc = s.acc := rfl

@[simp] theorem spendDraw_acks (s : State) : (spendDraw s).acks = s.acks := rfl

@[simp] theorem spendDraw_polls (s : State) : (spendDraw s).polls = s.polls := rfl

@[simp] theorem spendDraw_status (s : State) : (spendDraw s).status = s.status := rfl

@[simp] theorem spendDraw_stretchLimit (s : State) :
    (spendDraw s).stretchLimit = s.stretchLimit := rfl

@[simp] theorem spendDraw_host (s : State) : (spendDraw s).host = s.host := rfl

@[simp] theorem spendDraw_statusReads (s : State) : (spendDraw s).statusReads = s.statusReads := rfl

@[simp] theorem spendDraw_draws (s : State) : (spendDraw s).draws = s.draws.tail := rfl

@[simp] theorem spendDraw_drawCount (s : State) :
    (spendDraw s).drawCount = if s.draws.isEmpty then s.drawCount + 1 else s.drawCount := rfl

@[simp] theorem spendDraw_events (s : State) : (spendDraw s).events = s.events := rfl

/-! ### raiseStatus -/

@[simp] theorem raiseStatus_pinMode (c : St) (s : State) :
    (raiseStatus c s).pinMode = s.pinMode := rfl

@[simp] theorem raiseStatus_cur (c : St) (s : State) : (raiseStatus c s).cur = s.cur := rfl

@[simp] theorem raiseStatus_upc (c : St) (s : State) : (raiseStatus c s).upc = s.upc := rfl

@[simp] theorem raiseStatus_shreg (c : St) (s : State) : (raiseStatus c s).shreg = s.shreg := rfl

@[simp] theorem raiseStatus_acc (c : St) (s : State) : (raiseStatus c s).acc = s.acc := rfl

@[simp] theorem raiseStatus_acks (c : St) (s : State) : (raiseStatus c s).acks = s.acks := rfl

@[simp] theorem raiseStatus_polls (c : St) (s : State) : (raiseStatus c s).polls = s.polls := rfl

@[simp] theorem raiseStatus_status (c : St) (s : State) :
    (raiseStatus c s).status = ⟨s.status.phase, false, c, false, 0⟩ := rfl

@[simp] theorem raiseStatus_stretchLimit (c : St) (s : State) :
    (raiseStatus c s).stretchLimit = s.stretchLimit := rfl

@[simp] theorem raiseStatus_host (c : St) (s : State) : (raiseStatus c s).host = s.host := rfl

@[simp] theorem raiseStatus_statusReads (c : St) (s : State) :
    (raiseStatus c s).statusReads = s.statusReads := rfl

@[simp] theorem raiseStatus_draws (c : St) (s : State) : (raiseStatus c s).draws = s.draws := rfl

@[simp] theorem raiseStatus_drawCount (c : St) (s : State) :
    (raiseStatus c s).drawCount = s.drawCount := rfl

@[simp] theorem raiseStatus_events (c : St) (s : State) : (raiseStatus c s).events = s.events := rfl

/-! ### raiseIllegal -/

@[simp] theorem raiseIllegal_pinMode (w : Word) (s : State) :
    (raiseIllegal w s).pinMode = s.pinMode := rfl

@[simp] theorem raiseIllegal_cur (w : Word) (s : State) : (raiseIllegal w s).cur = s.cur := rfl

@[simp] theorem raiseIllegal_upc (w : Word) (s : State) : (raiseIllegal w s).upc = s.upc := rfl

@[simp] theorem raiseIllegal_shreg (w : Word) (s : State) :
    (raiseIllegal w s).shreg = s.shreg := rfl

@[simp] theorem raiseIllegal_acc (w : Word) (s : State) : (raiseIllegal w s).acc = s.acc := rfl

@[simp] theorem raiseIllegal_acks (w : Word) (s : State) : (raiseIllegal w s).acks = s.acks := rfl

@[simp] theorem raiseIllegal_polls (w : Word) (s : State) :
    (raiseIllegal w s).polls = s.polls := rfl

@[simp] theorem raiseIllegal_status (w : Word) (s : State) :
    (raiseIllegal w s).status = ⟨s.status.phase, false, .illegal, false, 0⟩ := rfl

@[simp] theorem raiseIllegal_stretchLimit (w : Word) (s : State) :
    (raiseIllegal w s).stretchLimit = s.stretchLimit := rfl

@[simp] theorem raiseIllegal_host (w : Word) (s : State) : (raiseIllegal w s).host = s.host := rfl

@[simp] theorem raiseIllegal_statusReads (w : Word) (s : State) :
    (raiseIllegal w s).statusReads = s.statusReads := rfl

@[simp] theorem raiseIllegal_draws (w : Word) (s : State) :
    (raiseIllegal w s).draws = s.draws := rfl

@[simp] theorem raiseIllegal_drawCount (w : Word) (s : State) :
    (raiseIllegal w s).drawCount = s.drawCount := rfl

@[simp] theorem raiseIllegal_events (w : Word) (s : State) :
    (raiseIllegal w s).events = s.events ++ [.refuse w] := rfl

/-! ### raiseTimeout -/

@[simp] theorem raiseTimeout_pinMode (s : State) : (raiseTimeout s).pinMode = s.pinMode := rfl

@[simp] theorem raiseTimeout_cur (s : State) : (raiseTimeout s).cur = s.cur := rfl

@[simp] theorem raiseTimeout_upc (s : State) : (raiseTimeout s).upc = s.upc := rfl

@[simp] theorem raiseTimeout_shreg (s : State) : (raiseTimeout s).shreg = s.shreg := rfl

@[simp] theorem raiseTimeout_acc (s : State) : (raiseTimeout s).acc = s.acc := rfl

@[simp] theorem raiseTimeout_acks (s : State) : (raiseTimeout s).acks = s.acks := rfl

@[simp] theorem raiseTimeout_polls (s : State) : (raiseTimeout s).polls = 0 := rfl

@[simp] theorem raiseTimeout_status (s : State) :
    (raiseTimeout s).status = ⟨s.status.phase, false, .timeout, false, 0⟩ := rfl

@[simp] theorem raiseTimeout_stretchLimit (s : State) :
    (raiseTimeout s).stretchLimit = s.stretchLimit := rfl

@[simp] theorem raiseTimeout_host (s : State) : (raiseTimeout s).host = s.host := rfl

@[simp] theorem raiseTimeout_statusReads (s : State) :
    (raiseTimeout s).statusReads = s.statusReads := rfl

@[simp] theorem raiseTimeout_draws (s : State) : (raiseTimeout s).draws = s.draws := rfl

@[simp] theorem raiseTimeout_drawCount (s : State) : (raiseTimeout s).drawCount = s.drawCount := rfl

@[simp] theorem raiseTimeout_events (s : State) :
    (raiseTimeout s).events = s.events ++ [.abort .timeout] := rfl

/-! ### complete -/

@[simp] theorem complete_pinMode (c : St) (k : Bool) (d : Byte) (f : Phase) (s : State) :
    (complete c k d f s).pinMode = s.pinMode := rfl

@[simp] theorem complete_cur (c : St) (k : Bool) (d : Byte) (f : Phase) (s : State) :
    (complete c k d f s).cur = s.cur := rfl

@[simp] theorem complete_upc (c : St) (k : Bool) (d : Byte) (f : Phase) (s : State) :
    (complete c k d f s).upc = s.upc := rfl

@[simp] theorem complete_shreg (c : St) (k : Bool) (d : Byte) (f : Phase) (s : State) :
    (complete c k d f s).shreg = s.shreg := rfl

@[simp] theorem complete_acc (c : St) (k : Bool) (d : Byte) (f : Phase) (s : State) :
    (complete c k d f s).acc = s.acc := rfl

@[simp] theorem complete_acks (c : St) (k : Bool) (d : Byte) (f : Phase) (s : State) :
    (complete c k d f s).acks = s.acks := rfl

@[simp] theorem complete_polls (c : St) (k : Bool) (d : Byte) (f : Phase) (s : State) :
    (complete c k d f s).polls = s.polls := rfl

@[simp] theorem complete_status (c : St) (k : Bool) (d : Byte) (f : Phase) (s : State) :
    (complete c k d f s).status = ⟨f, false, c, k, d⟩ := rfl

@[simp] theorem complete_stretchLimit (c : St) (k : Bool) (d : Byte) (f : Phase) (s : State) :
    (complete c k d f s).stretchLimit = s.stretchLimit := rfl

@[simp] theorem complete_host (c : St) (k : Bool) (d : Byte) (f : Phase) (s : State) :
    (complete c k d f s).host = s.host := rfl

@[simp] theorem complete_statusReads (c : St) (k : Bool) (d : Byte) (f : Phase) (s : State) :
    (complete c k d f s).statusReads = s.statusReads := rfl

@[simp] theorem complete_draws (c : St) (k : Bool) (d : Byte) (f : Phase) (s : State) :
    (complete c k d f s).draws = s.draws := rfl

@[simp] theorem complete_drawCount (c : St) (k : Bool) (d : Byte) (f : Phase) (s : State) :
    (complete c k d f s).drawCount = s.drawCount := rfl

@[simp] theorem complete_events (c : St) (k : Bool) (d : Byte) (f : Phase) (s : State) :
    (complete c k d f s).events = s.events ++ [.complete c k d] := rfl

/-! ### accept -/

@[simp] theorem accept_pinMode (w : Word) (s : State) : (accept w s).pinMode = s.pinMode := rfl

@[simp] theorem accept_cur (w : Word) (s : State) : (accept w s).cur = w := rfl

@[simp] theorem accept_upc (w : Word) (s : State) : (accept w s).upc = 0 := rfl

@[simp] theorem accept_shreg (w : Word) (s : State) : (accept w s).shreg = s.shreg := rfl

@[simp] theorem accept_acc (w : Word) (s : State) : (accept w s).acc = s.acc := rfl

@[simp] theorem accept_acks (w : Word) (s : State) : (accept w s).acks = false := rfl

@[simp] theorem accept_polls (w : Word) (s : State) : (accept w s).polls = 0 := rfl

@[simp] theorem accept_status (w : Word) (s : State) :
    (accept w s).status = { s.status with busy := true } := rfl

@[simp] theorem accept_stretchLimit (w : Word) (s : State) :
    (accept w s).stretchLimit = s.stretchLimit := rfl

@[simp] theorem accept_host (w : Word) (s : State) : (accept w s).host = s.host := rfl

@[simp] theorem accept_statusReads (w : Word) (s : State) :
    (accept w s).statusReads = s.statusReads := rfl

@[simp] theorem accept_draws (w : Word) (s : State) : (accept w s).draws = s.draws := rfl

@[simp] theorem accept_drawCount (w : Word) (s : State) :
    (accept w s).drawCount = s.drawCount := rfl

@[simp] theorem accept_events (w : Word) (s : State) :
    (accept w s).events = s.events ++ [.accept w] := rfl

/-! ### dropAction -/

@[simp] theorem dropAction_pinMode (s : State) : (dropAction s).pinMode = s.pinMode := rfl

@[simp] theorem dropAction_cur (s : State) : (dropAction s).cur = s.cur := rfl

@[simp] theorem dropAction_upc (s : State) : (dropAction s).upc = s.upc := rfl

@[simp] theorem dropAction_shreg (s : State) : (dropAction s).shreg = s.shreg := rfl

@[simp] theorem dropAction_acc (s : State) : (dropAction s).acc = s.acc := rfl

@[simp] theorem dropAction_acks (s : State) : (dropAction s).acks = s.acks := rfl

@[simp] theorem dropAction_polls (s : State) : (dropAction s).polls = s.polls := rfl

@[simp] theorem dropAction_status (s : State) : (dropAction s).status = s.status := rfl

@[simp] theorem dropAction_stretchLimit (s : State) :
    (dropAction s).stretchLimit = s.stretchLimit := rfl

@[simp] theorem dropAction_host (s : State) : (dropAction s).host = s.host.tail := rfl

@[simp] theorem dropAction_statusReads (s : State) :
    (dropAction s).statusReads = s.statusReads := rfl

@[simp] theorem dropAction_draws (s : State) : (dropAction s).draws = s.draws := rfl

@[simp] theorem dropAction_drawCount (s : State) : (dropAction s).drawCount = s.drawCount := rfl

@[simp] theorem dropAction_events (s : State) : (dropAction s).events = s.events := rfl

/-! ### readStatus -/

@[simp] theorem readStatus_pinMode (s : State) : (readStatus s).pinMode = s.pinMode := rfl

@[simp] theorem readStatus_cur (s : State) : (readStatus s).cur = s.cur := rfl

@[simp] theorem readStatus_upc (s : State) : (readStatus s).upc = s.upc := rfl

@[simp] theorem readStatus_shreg (s : State) : (readStatus s).shreg = s.shreg := rfl

@[simp] theorem readStatus_acc (s : State) : (readStatus s).acc = s.acc := rfl

@[simp] theorem readStatus_acks (s : State) : (readStatus s).acks = s.acks := rfl

@[simp] theorem readStatus_polls (s : State) : (readStatus s).polls = s.polls := rfl

@[simp] theorem readStatus_status (s : State) : (readStatus s).status = s.status := rfl

@[simp] theorem readStatus_stretchLimit (s : State) :
    (readStatus s).stretchLimit = s.stretchLimit := rfl

@[simp] theorem readStatus_host (s : State) : (readStatus s).host = s.host := rfl

@[simp] theorem readStatus_statusReads (s : State) :
    (readStatus s).statusReads = s.statusReads ++ [statusWord s.status] := rfl

@[simp] theorem readStatus_draws (s : State) : (readStatus s).draws = s.draws := rfl

@[simp] theorem readStatus_drawCount (s : State) : (readStatus s).drawCount = s.drawCount := rfl

@[simp] theorem readStatus_events (s : State) : (readStatus s).events = s.events := rfl

/-! ### resetMachine -/

@[simp] theorem resetMachine_pinMode (s : State) :
    (resetMachine s).pinMode = Vector.replicate 16 .unknown := rfl

@[simp] theorem resetMachine_cur (s : State) : (resetMachine s).cur = 0 := rfl

@[simp] theorem resetMachine_upc (s : State) : (resetMachine s).upc = 0 := rfl

@[simp] theorem resetMachine_shreg (s : State) : (resetMachine s).shreg = 0 := rfl

@[simp] theorem resetMachine_acc (s : State) : (resetMachine s).acc = 0 := rfl

@[simp] theorem resetMachine_acks (s : State) : (resetMachine s).acks = false := rfl

@[simp] theorem resetMachine_polls (s : State) : (resetMachine s).polls = 0 := rfl

@[simp] theorem resetMachine_status (s : State) : (resetMachine s).status = Status.reset := rfl

@[simp] theorem resetMachine_stretchLimit (s : State) :
    (resetMachine s).stretchLimit = s.stretchLimit := rfl

@[simp] theorem resetMachine_host (s : State) : (resetMachine s).host = s.host := rfl

@[simp] theorem resetMachine_statusReads (s : State) :
    (resetMachine s).statusReads = s.statusReads := rfl

@[simp] theorem resetMachine_draws (s : State) : (resetMachine s).draws = s.draws := rfl

@[simp] theorem resetMachine_drawCount (s : State) : (resetMachine s).drawCount = s.drawCount := rfl

@[simp] theorem resetMachine_events (s : State) : (resetMachine s).events = s.events := rfl

/-! ### The pin-driver file -/

@[simp] theorem mode_setMode_same (s : State) (p : Pin) (m : PinMode) :
    (s.setMode p m).mode p = m := by
  simp [State.mode, State.setMode]

theorem mode_setMode_ne (s : State) {p q : Pin} (m : PinMode) (h : p ≠ q) :
    (s.setMode p m).mode q = s.mode q := by
  have hn : p.toNat ≠ q.toNat := fun e => h (BitVec.eq_of_toNat_eq e)
  simp [State.mode, State.setMode, hn]

theorem mode_setMode (s : State) (p q : Pin) (m : PinMode) :
    (s.setMode p m).mode q = if p = q then m else s.mode q := by
  split
  · next h => subst h; exact mode_setMode_same s p m
  · next h => exact mode_setMode_ne s m h

/-- A pin's mode depends on the pin-driver file alone. -/
theorem mode_congr {s t : State} (h : s.pinMode = t.pinMode) (p : Pin) : s.mode p = t.mode p := by
  unfold State.mode
  rw [getElem_congr_coll h]

theorem mode_setModeOp (p q : Pin) (m : PinMode) (s : State) :
    (setModeOp p m s).mode q = if p = q then m else s.mode q := by
  rw [← mode_setMode]
  exact mode_congr rfl q

@[simp] theorem mode_reset (p : Pin) : State.reset.mode p = .unknown := by
  simp [State.mode, State.reset]

end Sys2Proof.Machine
end

