-- ==== Sys2Proof/Laws/Ops.lean ====
section
/-! SUPPORT. What each shared operation can do, said once: line reads, micro-operations, and one step
of a command. Proofs cite these and do not unfold the operations. -/

namespace Sys2Proof.Machine

@[simp] theorem linePin_encode (i : Instr) (l : Line) : linePin (encode i) l = pinOf i l := by
  cases l <;> simp [linePin, pinOf]

/-! ### Line reads -/

/-- A read of a line changes the environment's answers and nothing else. -/
theorem spendForRead_eq (p : Pin) (s : State) :
    spendForRead p s = s ∨ spendForRead p s = spendDraw s := by
  unfold spendForRead
  split
  · exact .inl rfl
  · exact .inr rfl
  · exact .inr rfl

@[simp] theorem spendForRead_pinMode (p : Pin) (s : State) :
    (spendForRead p s).pinMode = s.pinMode := by
  rcases spendForRead_eq p s with h | h <;> simp [h]

@[simp] theorem spendForRead_cur (p : Pin) (s : State) : (spendForRead p s).cur = s.cur := by
  rcases spendForRead_eq p s with h | h <;> simp [h]

@[simp] theorem spendForRead_upc (p : Pin) (s : State) : (spendForRead p s).upc = s.upc := by
  rcases spendForRead_eq p s with h | h <;> simp [h]

@[simp] theorem spendForRead_shreg (p : Pin) (s : State) : (spendForRead p s).shreg = s.shreg := by
  rcases spendForRead_eq p s with h | h <;> simp [h]

@[simp] theorem spendForRead_acc (p : Pin) (s : State) : (spendForRead p s).acc = s.acc := by
  rcases spendForRead_eq p s with h | h <;> simp [h]

@[simp] theorem spendForRead_acks (p : Pin) (s : State) : (spendForRead p s).acks = s.acks := by
  rcases spendForRead_eq p s with h | h <;> simp [h]

@[simp] theorem spendForRead_polls (p : Pin) (s : State) : (spendForRead p s).polls = s.polls := by
  rcases spendForRead_eq p s with h | h <;> simp [h]

@[simp] theorem spendForRead_status (p : Pin) (s : State) :
    (spendForRead p s).status = s.status := by
  rcases spendForRead_eq p s with h | h <;> simp [h]

@[simp] theorem spendForRead_stretchLimit (p : Pin) (s : State) :
    (spendForRead p s).stretchLimit = s.stretchLimit := by
  rcases spendForRead_eq p s with h | h <;> simp [h]

@[simp] theorem spendForRead_host (p : Pin) (s : State) : (spendForRead p s).host = s.host := by
  rcases spendForRead_eq p s with h | h <;> simp [h]

@[simp] theorem spendForRead_statusReads (p : Pin) (s : State) :
    (spendForRead p s).statusReads = s.statusReads := by
  rcases spendForRead_eq p s with h | h <;> simp [h]

@[simp] theorem spendForRead_events (p : Pin) (s : State) :
    (spendForRead p s).events = s.events := by
  rcases spendForRead_eq p s with h | h <;> simp [h]

theorem spendForRead_drivenLow {p : Pin} {s : State} (h : s.mode p = .drivenLow) :
    spendForRead p s = s := by
  simp [spendForRead, h]

theorem spendForRead_released {p : Pin} {s : State} (h : s.mode p = .released) :
    spendForRead p s = spendDraw s := by
  simp [spendForRead, h]

/-- A read of a line leaves every register, the configuration and the host alone, and appends one
sample to the record. -/
theorem afterLineRead_frame (l : Line) (s : State) :
    (afterLineRead l s).pinMode = s.pinMode ∧ (afterLineRead l s).cur = s.cur ∧
    (afterLineRead l s).upc = s.upc ∧ (afterLineRead l s).shreg = s.shreg ∧
    (afterLineRead l s).acc = s.acc ∧ (afterLineRead l s).acks = s.acks ∧
    (afterLineRead l s).polls = s.polls ∧ (afterLineRead l s).status = s.status ∧
    (afterLineRead l s).stretchLimit = s.stretchLimit ∧ (afterLineRead l s).host = s.host ∧
    (afterLineRead l s).statusReads = s.statusReads ∧
    (afterLineRead l s).events = s.events ++ [.sample (linePin s.cur l) (lineRead l s)] := by
  unfold afterLineRead
  rcases spendForRead_eq (linePin s.cur l) s with h | h <;> simp [h]

/-- A Released line reads low exactly when another device pulls it (20_memory R52). -/
theorem lineRead_released {l : Line} {s : State} (h : s.mode (linePin s.cur l) = .released) :
    lineRead l s = if nextDraw s then .low else .high := by
  simp [lineRead, readLevel, h, levelOf]

theorem lineRead_drivenLow {l : Line} {s : State} (h : s.mode (linePin s.cur l) = .drivenLow) :
    lineRead l s = .low := by
  simp [lineRead, readLevel, h, levelOf]

/-- The next draw and what is left, when the environment's next answer is listed. -/
theorem nextDraw_cons {s : State} {d : Bool} {ds : List Bool} (h : s.draws = d :: ds) :
    nextDraw s = d ∧ (spendDraw s).draws = ds ∧ (spendDraw s).drawCount = s.drawCount := by
  simp [nextDraw, h]

/-! ### Micro-operations -/

/-- The state a micro-operation leaves, however it ends. -/
def MicroResult.state : MicroResult → State
  | .done s => s
  | .hold s => s
  | .limit s => s

@[simp] theorem state_done (s : State) : (MicroResult.done s).state = s := rfl

@[simp] theorem state_hold (s : State) : (MicroResult.hold s).state = s := rfl

@[simp] theorem state_limit (s : State) : (MicroResult.limit s).state = s := rfl

/-- How one poll ends (40_line_driver R106). -/
theorem microAwait_cases (l : Line) (s : State) :
    (lineRead l s = .high ∧ microAwait l s = .done { afterLineRead l s with polls := 0 }) ∨
    (lineRead l s = .low ∧ limitReached s.stretchLimit (s.polls + 1) = false ∧
      microAwait l s = .hold { afterLineRead l s with polls := s.polls + 1 }) ∨
    (lineRead l s = .low ∧ limitReached s.stretchLimit (s.polls + 1) = true ∧
      microAwait l s = .limit { afterLineRead l s with polls := s.polls + 1 }) := by
  obtain ⟨-, -, -, -, -, -, h7, -, h9, -⟩ := afterLineRead_frame l s
  cases hl : lineRead l s
  · cases hr : limitReached s.stretchLimit (s.polls + 1)
    · exact .inr (.inl ⟨rfl, rfl, by simp [microAwait, pollResult, hl, h7, h9, hr]⟩)
    · exact .inr (.inr ⟨rfl, rfl, by simp [microAwait, pollResult, hl, h7, h9, hr]⟩)
  · exact .inl ⟨rfl, by simp [microAwait, pollResult, hl]⟩

/-- No micro-operation writes CUR, UPC, STATUS, the configuration or the host's side. -/
theorem execMicro_frame (op : MicroOp) (s : State) :
    (execMicro op s).state.cur = s.cur ∧ (execMicro op s).state.upc = s.upc ∧
    (execMicro op s).state.status = s.status ∧
    (execMicro op s).state.stretchLimit = s.stretchLimit ∧
    (execMicro op s).state.host = s.host ∧
    (execMicro op s).state.statusReads = s.statusReads := by
  cases op with
  | await l =>
    obtain ⟨-, h2, h3, -, -, -, -, h8, h9, h10, h11, -⟩ := afterLineRead_frame l s
    rcases microAwait_cases l s with ⟨-, h⟩ | ⟨-, -, h⟩ | ⟨-, -, h⟩ <;> rw [execMicro, h] <;>
      exact ⟨h2, h3, h8, h9, h10, h11⟩
  | sampleAck =>
    obtain ⟨-, h2, h3, -, -, -, -, h8, h9, h10, h11, -⟩ := afterLineRead_frame .sda s
    exact ⟨h2, h3, h8, h9, h10, h11⟩
  | sampleBit =>
    obtain ⟨-, h2, h3, -, -, -, -, h8, h9, h10, h11, -⟩ := afterLineRead_frame .sda s
    exact ⟨h2, h3, h8, h9, h10, h11⟩
  | rel l => exact ⟨rfl, rfl, rfl, rfl, rfl, rfl⟩
  | drv l => exact ⟨rfl, rfl, rfl, rfl, rfl, rfl⟩
  | wait => exact ⟨rfl, rfl, rfl, rfl, rfl, rfl⟩
  | putbit => exact ⟨rfl, rfl, rfl, rfl, rfl, rfl⟩
  | shift => exact ⟨rfl, rfl, rfl, rfl, rfl, rfl⟩
  | putack => exact ⟨rfl, rfl, rfl, rfl, rfl, rfl⟩

/-- Only an AWAIT holds or reaches the limit (40_line_driver R116). -/
theorem execMicro_done (op : MicroOp) (s : State) (h : ∀ l, op ≠ .await l) :
    execMicro op s = .done (execMicro op s).state := by
  cases op <;> first | rfl | exact absurd rfl (h _)

/-! ### One step of a command -/

/-- The five meanings are one operation over the command's sequence, load and completion. -/
theorem exec_eq_commandStep (i : Instr) (s : State) :
    exec i s = commandStep (encode i) (loadOf i) (sequenceOf i) (finishOf i) s := by
  cases i <;> rfl

/-- With BUSY = 0 a command's step is its acceptance. -/
theorem exec_idle {i : Instr} {s : State} (h : s.status.busy = false) :
    exec i s = .next (accept (encode i) (loadOf i s)) := by
  simp [exec_eq_commandStep, commandStep, h]

/-- With the command in flight its step is the micro-operation at UPC. -/
theorem exec_runs {i : Instr} {op : MicroOp} {s : State} (h : runs i op s) :
    exec i s =
      match execMicro op s with
      | .done t => .next (advance (sequenceOf i).length (finishOf i) t)
      | .hold t => .next t
      | .limit t => .next (raiseTimeout t) := by
  obtain ⟨hb, hc, ho⟩ := h
  cases hx : execMicro op s <;>
    simp [exec_eq_commandStep, commandStep, hb, hc, microStep, ho, hx]

/-- While another command is in flight a command is refused. -/
theorem exec_other {i : Instr} {s : State} (hb : s.status.busy = true) (hc : s.cur ≠ encode i) :
    exec i s = .refused .cmdWhileBusy := by
  simp [exec_eq_commandStep, commandStep, hb, hc]

/-- Everything a command's step can answer as a next state. -/
theorem exec_next {i : Instr} {s t : State} (h : exec i s = .next t) :
    (s.status.busy = false ∧ t = accept (encode i) (loadOf i s)) ∨
    ∃ op, runs i op s ∧
      ((∃ u, execMicro op s = .done u ∧ t = advance (sequenceOf i).length (finishOf i) u) ∨
       (∃ u, execMicro op s = .hold u ∧ t = u) ∨
       (∃ u, execMicro op s = .limit u ∧ t = raiseTimeout u)) := by
  cases hb : s.status.busy
  · rw [exec_idle hb] at h
    exact .inl ⟨rfl, by injection h with h; exact h.symm⟩
  · by_cases hc : s.cur = encode i
    · cases ho : (sequenceOf i)[s.upc.toNat]? with
      | none => simp [exec_eq_commandStep, commandStep, hb, hc, microStep, ho] at h
      | some op =>
        have hr : runs i op s := ⟨hb, hc, ho⟩
        rw [exec_runs hr] at h
        refine .inr ⟨op, hr, ?_⟩
        cases hx : execMicro op s with
        | done u => rw [hx] at h; injection h with h; exact .inl ⟨u, rfl, h.symm⟩
        | hold u => rw [hx] at h; injection h with h; exact .inr (.inl ⟨u, rfl, h.symm⟩)
        | limit u => rw [hx] at h; injection h with h; exact .inr (.inr ⟨u, rfl, h.symm⟩)
    · rw [exec_other hb hc] at h
      cases h

/-- An advance either moves UPC or, past the last micro-operation, completes. -/
theorem advance_more {len : Nat} {finish : State → State} {s : State} (h : s.upc.toNat + 1 < len) :
    advance len finish s = { s with upc := s.upc + 1 } := by
  unfold advance
  exact if_neg (Nat.ne_of_lt h)

theorem advance_last {len : Nat} {finish : State → State} {s : State} (h : s.upc.toNat + 1 = len) :
    advance len finish s = finish { s with upc := s.upc + 1 } := by
  unfold advance
  exact if_pos h

end Sys2Proof.Machine
end

