-- ==== Sys2Proof/Laws/Sequences.lean ====
section
/-! SUPPORT. Facts about the five micro-sequences, each checked index by index. -/

namespace Sys2Proof.Machine

/-- A check of every entry of a sequence with its index. -/
def everyEntry (ops : List MicroOp) (c : Nat → MicroOp → Bool) : Bool :=
  (List.range ops.length).all fun n =>
    match ops[n]? with
    | some op => c n op
    | none => true

theorem everyEntry_get {ops : List MicroOp} {c : Nat → MicroOp → Bool} (h : everyEntry ops c = true)
    {n : Nat} {op : MicroOp} (ho : ops[n]? = some op) : c n op = true := by
  have hn : n < ops.length := (List.getElem?_eq_some_iff.mp ho).1
  have := List.all_eq_true.mp h n (List.mem_range.mpr hn)
  simpa [ho] using this

theorem length_sequenceOf (i : Instr) :
    (sequenceOf i).length =
      match i with
      | .init _ _ => 2
      | .start _ _ => 6
      | .stop _ _ => 7
      | .write _ _ _ => 64
      | .read _ _ _ => 64 := by
  cases i <;> rfl

theorem length_sequenceOf_le (i : Instr) : (sequenceOf i).length ≤ 64 := by
  rw [length_sequenceOf]
  cases i <;> simp

theorem length_sequenceOf_pos (i : Instr) : 0 < (sequenceOf i).length := by
  rw [length_sequenceOf]
  cases i <;> simp

/-- UPC does not wrap inside a sequence (10_state R26). -/
theorem upc_succ_toNat {i : Instr} {s : State} (h : s.upc.toNat < (sequenceOf i).length) :
    (s.upc + 1).toNat = s.upc.toNat + 1 := by
  have := length_sequenceOf_le i
  rw [BitVec.toNat_add]
  exact Nat.mod_eq_of_lt (by simp; omega)

/-- The micro-operation a running command is at stands inside its sequence. -/
theorem runs_inside {i : Instr} {op : MicroOp} {s : State} (h : runs i op s) :
    s.upc.toNat < (sequenceOf i).length :=
  (List.getElem?_eq_some_iff.mp h.2.2).1

/-- A write of a line, the only kind of micro-operation a sequence ends with. -/
def isLineWrite : MicroOp → Bool
  | .rel _ => true
  | .drv _ => true
  | .await _ => false
  | .wait => false
  | .putbit => false
  | .shift => false
  | .sampleAck => false
  | .sampleBit => false
  | .putack => false

/-- Every sequence ends with a REL or a DRV. -/
theorem more_of_not_lineWrite {i : Instr} {op : MicroOp} {s : State} (h : runs i op s)
    (hw : isLineWrite op = false) : moreToRun i s := by
  have inside := runs_inside h
  have key : everyEntry (sequenceOf i)
      (fun n op => decide (n + 1 < (sequenceOf i).length) || isLineWrite op) = true := by
    cases i <;> rfl
  have := everyEntry_get key h.2.2
  simpa [hw, moreToRun] using this

/-- The five micro-operations of one command only (40_line_driver R111 to R115). -/
theorem only_in {i : Instr} {op : MicroOp} {n : Nat} (h : (sequenceOf i)[n]? = some op) :
    (op = .putbit ∨ op = .shift ∨ op = .sampleAck → i.opcode = 4) ∧
    (op = .sampleBit ∨ op = .putack → i.opcode = 5) := by
  have key : everyEntry (sequenceOf i) (fun _ op =>
      (!(op == .putbit || op == .shift || op == .sampleAck) || i.opcode == 4) &&
      (!(op == .sampleBit || op == .putack) || i.opcode == 5)) = true := by
    cases i <;> rfl
  have := everyEntry_get key h
  simp only [Bool.and_eq_true, Bool.or_eq_true, Bool.not_eq_true', Bool.or_eq_false_iff,
    beq_eq_false_iff_ne, beq_iff_eq, ne_eq] at this
  constructor
  · rintro (rfl | rfl | rfl) <;> simpa using this.1
  · rintro (rfl | rfl) <;> simpa using this.2

/-- Every AWAIT is on SCL. -/
theorem await_on_scl {i : Instr} {l : Line} {n : Nat} (h : (sequenceOf i)[n]? = some (.await l)) :
    l = .scl := by
  have key : everyEntry (sequenceOf i) (fun _ op => op != .await .sda) = true := by
    cases i <;> rfl
  have := everyEntry_get key h
  cases l
  · simp at this
  · rfl

end Sys2Proof.Machine
end

