-- ==== Sys2Proof/Laws/Step.lean ====
section
/-! SUPPORT. Everything a step can do, turn by turn. -/

namespace Sys2Proof.Machine

/-- The sequencer's turn with BUSY = 1 runs the command in CUR. -/
theorem sequencerTurn_busy {s : State} {i : Instr} (hb : s.status.busy = true)
    (hd : decode s.cur = .ok i) : sequencerTurn s = exec i s := by
  simp [sequencerTurn, hb, hd]

/-- With BUSY = 0 the sequencer has no step. -/
theorem sequencerTurn_idle {s : State} (hb : s.status.busy = false) :
    sequencerTurn s = .next s := by
  simp [sequencerTurn, hb]

/-- The inversion of a step: whose turn it was, and what it did. -/
theorem step_next {s t : State} (h : step s = .next t) :
    (∃ w, s.host = .writeCmd w :: s.host.tail ∧ s.status.busy = false ∧
      ((∃ e, decode w = .error e ∧ t = raiseIllegal w (dropAction s)) ∨
       (∃ i, decode w = .ok i ∧ exec i (dropAction s) = .next t))) ∨
    (s.host = .readStatus :: s.host.tail ∧ t = readStatus (dropAction s)) ∨
    (s.host = .reset :: s.host.tail ∧ t = resetMachine (dropAction s)) ∨
    (s.host = .waitIdle :: s.host.tail ∧ s.status.busy = false ∧ t = dropAction s) ∨
    (∃ u, (u = s ∧ (s.host = [] ∨ s.host = .waitIdle :: s.host.tail) ∨
        u = dropAction s ∧ s.host = .pass :: s.host.tail) ∧
      ((s.status.busy = false ∧ t = u) ∨
       (s.status.busy = true ∧ ∃ i, decode s.cur = .ok i ∧ exec i u = .next t))) := by
  have seq : ∀ u : State, u.status.busy = s.status.busy → u.cur = s.cur →
      sequencerTurn u = .next t →
      (s.status.busy = false ∧ t = u) ∨
        (s.status.busy = true ∧ ∃ i, decode s.cur = .ok i ∧ exec i u = .next t) := by
    intro u hb hc hu
    cases h0 : s.status.busy
    · rw [sequencerTurn_idle (hb.trans h0)] at hu
      injection hu with hu
      exact .inl ⟨rfl, hu.symm⟩
    · cases hd : decode s.cur with
      | error e => simp [sequencerTurn, hb, h0, hc, hd] at hu
      | ok i =>
        rw [sequencerTurn_busy (hb.trans h0) (hc ▸ hd)] at hu
        exact .inr ⟨rfl, i, rfl, hu⟩
  unfold step turn at h
  cases hh : s.host with
  | nil =>
    rw [hh] at h
    exact .inr (.inr (.inr (.inr ⟨s, .inl ⟨rfl, .inl rfl⟩, seq s rfl rfl h⟩)))
  | cons a rest =>
    rw [hh] at h
    cases a with
    | writeCmd w =>
      refine .inl ⟨w, rfl, ?_⟩
      simp only [writeCmd, dropAction_status] at h
      cases hb : s.status.busy
      · simp only [hb, Bool.false_eq_true, if_false] at h
        refine ⟨rfl, ?_⟩
        cases hd : decode w with
        | error e => rw [hd] at h; injection h with h; exact .inl ⟨e, rfl, h.symm⟩
        | ok i => rw [hd] at h; exact .inr ⟨i, rfl, h⟩
      · simp [hb] at h
    | readStatus => injection h with h; exact .inr (.inl ⟨rfl, h.symm⟩)
    | reset => injection h with h; exact .inr (.inr (.inl ⟨rfl, h.symm⟩))
    | pass =>
      exact .inr (.inr (.inr (.inr ⟨dropAction s, .inr ⟨rfl, rfl⟩, seq (dropAction s) rfl rfl h⟩)))
    | waitIdle =>
      simp only [waitTurn] at h
      cases hb : s.status.busy
      · simp only [hb, Bool.false_eq_true, if_false] at h
        injection h with h
        exact .inr (.inr (.inr (.inl ⟨rfl, rfl, h.symm⟩)))
      · simp only [hb, if_true] at h
        have := seq s rfl rfl h
        rw [hb] at this
        exact .inr (.inr (.inr (.inr ⟨s, .inl ⟨rfl, .inr rfl⟩, this⟩)))

/-! ### Runs -/

/-- A run of the machine is the host's run of its core. -/
theorem runSteps_eq_core (k : Nat) (s : State) :
    runSteps k s = Host.Core.run Sys2Proof.core k s := by
  induction k generalizing s with
  | zero => rfl
  | succ k ih =>
    have unroll := Host.Core.run.eq_2 Sys2Proof.core s k
    have core : Sys2Proof.core.step s = step s := rfl
    rw [core] at unroll
    cases hs : step s with
    | next t =>
      rw [hs] at unroll
      exact (show runSteps (k + 1) s = runSteps k t by simp [runSteps, hs]).trans
        ((ih t).trans unroll.symm)
    | fault f =>
      rw [hs] at unroll
      exact (show runSteps (k + 1) s = .fault f by simp [runSteps, hs]).trans unroll.symm
    | refused r =>
      rw [hs] at unroll
      exact (show runSteps (k + 1) s = .refused r by simp [runSteps, hs]).trans unroll.symm

@[simp] theorem runSteps_zero (s : State) : runSteps 0 s = .next s := rfl

/-- A run whose first step answers a next state goes on from there. -/
theorem runSteps_next {k : Nat} {s t : State} (h : step s = .next t) :
    runSteps (k + 1) s = runSteps k t := by
  simp [runSteps, h]

/-- A run of j + k steps is a run of k steps from where j steps lead. -/
theorem runSteps_add {j k : Nat} {s t : State} (h : runSteps j s = .next t) :
    runSteps (j + k) s = runSteps k t := by
  induction j generalizing s with
  | zero =>
    injection h with h
    rw [h, Nat.zero_add]
  | succ j ih =>
    rw [Nat.succ_add]
    cases hs : step s with
    | next u =>
      rw [runSteps_next hs] at h ⊢
      exact ih h
    | fault f => simp [runSteps, hs] at h
    | refused r => simp [runSteps, hs] at h

end Sys2Proof.Machine
end

