-- ==== Sys2Proof/Laws/Exec.lean ====
section
/-! SUPPORT. Everything one step of a command can do, field by field: the lemma that invariants and
frames over `exec` are derived from. -/

namespace Sys2Proof.Machine

/-- What a completion writes, and what it leaves. -/
theorem finishOf_frame (i : Instr) (s : State) :
    (finishOf i s).pinMode = s.pinMode ∧ (finishOf i s).cur = s.cur ∧
    (finishOf i s).upc = s.upc ∧ (finishOf i s).shreg = s.shreg ∧
    (finishOf i s).polls = s.polls ∧ (finishOf i s).stretchLimit = s.stretchLimit ∧
    (finishOf i s).host = s.host ∧ (finishOf i s).statusReads = s.statusReads ∧
    (finishOf i s).status.busy = false ∧ (finishOf i s).status.st = .ok ∧
    (finishOf i s).status.phase = phaseAfter i s.status.phase ∧
    ∃ a d, (finishOf i s).events = s.events ++ [.complete .ok a d] := by
  cases i <;> exact ⟨rfl, rfl, rfl, rfl, rfl, rfl, rfl, rfl, rfl, rfl, rfl, _, _, rfl⟩

/-- An acceptance loads SHREG or ACC and nothing else. -/
theorem loadOf_frame (i : Instr) (s : State) :
    (loadOf i s).pinMode = s.pinMode ∧ (loadOf i s).stretchLimit = s.stretchLimit ∧
    (loadOf i s).host = s.host ∧ (loadOf i s).statusReads = s.statusReads ∧
    (loadOf i s).status = s.status ∧ (loadOf i s).events = s.events := by
  cases i <;> exact ⟨rfl, rfl, rfl, rfl, rfl, rfl⟩

/-- A command's step, micro-operation by micro-operation, leaves CUR, the configuration and the
host's side alone. -/
theorem exec_frame {i : Instr} {op : MicroOp} {s t : State} (hr : runs i op s)
    (h : exec i s = .next t) :
    t.cur = s.cur ∧ t.stretchLimit = s.stretchLimit ∧ t.host = s.host ∧
    t.statusReads = s.statusReads := by
  have hf := execMicro_frame op s
  rw [exec_runs hr] at h
  cases hx : execMicro op s with
  | done u =>
    rw [hx] at h hf
    injection h with h
    subst h
    unfold advance
    split
    · obtain ⟨-, f2, -, -, -, f6, f7, f8, -⟩ := finishOf_frame i { u with upc := u.upc + 1 }
      exact ⟨f2.trans hf.1, f6.trans hf.2.2.2.1, f7.trans hf.2.2.2.2.1, f8.trans hf.2.2.2.2.2⟩
    · exact ⟨hf.1, hf.2.2.2.1, hf.2.2.2.2.1, hf.2.2.2.2.2⟩
  | hold u =>
    rw [hx] at h hf
    injection h with h
    subst h
    exact ⟨hf.1, hf.2.2.2.1, hf.2.2.2.2.1, hf.2.2.2.2.2⟩
  | limit u =>
    rw [hx] at h hf
    injection h with h
    subst h
    exact ⟨hf.1, hf.2.2.2.1, hf.2.2.2.2.1, hf.2.2.2.2.2⟩

/-- Only an AWAIT, on SCL, holds or reaches the limit. -/
theorem await_of_not_done {i : Instr} {op : MicroOp} {s : State} (hr : runs i op s)
    (h : ∀ u, execMicro op s ≠ .done u) : op = .await .scl := by
  have hl : ∃ l, op = .await l := by
    by_contra hno
    push Not at hno
    exact h _ (execMicro_done op s hno)
  obtain ⟨l, rfl⟩ := hl
  rw [await_on_scl hr.2.2]

/-- The outcomes of a step of the command in flight: it moves on, it completes, its AWAIT holds, or
its AWAIT times out (40_line_driver R100, R106). -/
inductive StepOutcome (i : Instr) (op : MicroOp) (s t : State) : Prop where
  | moves (status : t.status = s.status) (upc : t.upc = s.upc + 1) (more : moreToRun i s)
      (done : execMicro op s = .done (execMicro op s).state)
      (polls : t.polls = (execMicro op s).state.polls)
      (events : t.events = (execMicro op s).state.events)
  | completes (busy : t.status.busy = false) (st : t.status.st = .ok)
      (phase : t.status.phase = phaseAfter i s.status.phase) (upc : t.upc = s.upc + 1)
      (last : s.upc.toNat + 1 = (sequenceOf i).length) (write : isLineWrite op = true)
      (polls : t.polls = s.polls)
      (events : ∃ a d, t.events = (execMicro op s).state.events ++ [.complete .ok a d])
  | holds (await : op = .await .scl) (low : readLevel i.scl s = .low) (status : t.status = s.status)
      (upc : t.upc = s.upc) (polls : t.polls = s.polls + 1)
      (below : limitReached s.stretchLimit (s.polls + 1) = false)
      (events : t.events = s.events ++ [.sample i.scl .low])
  | timesOut (await : op = .await .scl) (low : readLevel i.scl s = .low)
      (status : t.status = ⟨s.status.phase, false, .timeout, false, 0⟩) (upc : t.upc = s.upc)
      (polls : t.polls = 0) (reached : limitReached s.stretchLimit (s.polls + 1) = true)
      (events : t.events = s.events ++ [.sample i.scl .low] ++ [.abort .timeout])

/-- Every step of a command in flight has one of those outcomes, and writes the pins and SHREG as its
micro-operation does. -/
theorem exec_outcome {i : Instr} {op : MicroOp} {s t : State} (hr : runs i op s)
    (h : exec i s = .next t) :
    t.pinMode = (execMicro op s).state.pinMode ∧ t.shreg = (execMicro op s).state.shreg ∧
    StepOutcome i op s t := by
  have hf := execMicro_frame op s
  have hi := runs_inside hr
  have hl : lineRead .scl s = readLevel i.scl s := by simp [lineRead, hr.2.1, pinOf]
  rw [exec_runs hr] at h
  cases hx : execMicro op s with
  | done u =>
    rw [hx] at h hf
    injection h with h
    subst h
    simp only [state_done] at hf ⊢
    rw [← hf.2.1] at hi
    by_cases hm : u.upc.toNat + 1 = (sequenceOf i).length
    · rw [advance_last hm]
      obtain ⟨f1, -, f3, f4, f5, -, -, -, f9, f10, f11, a, d, f12⟩ :=
        finishOf_frame i { u with upc := u.upc + 1 }
      have hw : isLineWrite op = true := by
        by_contra hw
        have := more_of_not_lineWrite hr (by simpa using hw)
        unfold moreToRun at this
        rw [← hf.2.1] at this
        omega
      refine ⟨f1, f4, .completes f9 f10 ?_ ?_ (hf.2.1 ▸ hm) hw ?_ ⟨a, d, ?_⟩⟩
      · rw [f11]; simp [hf.2.2.1]
      · rw [f3]; simp [hf.2.1]
      · rw [f5]
        cases op <;> simp [isLineWrite] at hw <;>
          (simp only [execMicro] at hx; injection hx with hx; subst hx; rfl)
      · rw [f12, hx]; rfl
    · have hm' : u.upc.toNat + 1 < (sequenceOf i).length := by omega
      rw [advance_more hm']
      exact ⟨rfl, rfl, .moves hf.2.2.1 (by simp [hf.2.1]) (by unfold moreToRun; rw [← hf.2.1]; exact hm')
        (by rw [hx]; rfl) (by rw [hx]; rfl) (by rw [hx]; rfl)⟩
  | hold u =>
    obtain rfl := await_of_not_done hr (fun v hv => by rw [hx] at hv; cases hv)
    rw [hx] at h
    injection h with h
    subst h
    rcases microAwait_cases .scl s with ⟨hc, e⟩ | ⟨hc, hlim, e⟩ | ⟨hc, hlim, e⟩ <;>
      rw [execMicro, e] at hx <;> cases hx
    exact ⟨by simp, by simp, .holds rfl (hl ▸ hc) (by simp [afterLineRead_frame])
      (by simp [afterLineRead_frame]) rfl hlim (by simp [afterLineRead_frame, hc, hr.2.1, pinOf])⟩
  | limit u =>
    obtain rfl := await_of_not_done hr (fun v hv => by rw [hx] at hv; cases hv)
    rw [hx] at h
    injection h with h
    subst h
    rcases microAwait_cases .scl s with ⟨hc, e⟩ | ⟨hc, hlim, e⟩ | ⟨hc, hlim, e⟩ <;>
      rw [execMicro, e] at hx <;> cases hx
    exact ⟨by simp, by simp, .timesOut rfl (hl ▸ hc) (by simp [afterLineRead_frame])
      (by simp [afterLineRead_frame]) rfl hlim (by simp [afterLineRead_frame, hc, hr.2.1, pinOf])⟩

/-- A command with no micro-operation at UPC faults; with one it answers a next state. -/
theorem exec_runs_next {i : Instr} {op : MicroOp} {s : State} (hr : runs i op s) :
    ∃ t, exec i s = .next t := by
  rw [exec_runs hr]
  cases execMicro op s with
  | done u => exact ⟨_, rfl⟩
  | hold u => exact ⟨_, rfl⟩
  | limit u => exact ⟨_, rfl⟩

end Sys2Proof.Machine
end

