-- ==== Sys2Proof/Laws/Drivers.lean ====
section
/-! SUPPORT. Which line each micro-operation writes, and the driver history of a command in flight:
the lemmas that statements about the pins are derived from. -/

namespace Sys2Proof.Machine

/-- The pins after a micro-operation of the command in CUR. -/
theorem execMicro_mode {i : Instr} {s : State} (op : MicroOp) (p : Pin) (hc : s.cur = encode i) :
    (execMicro op s).state.mode p =
      match writtenLine i s op with
      | some (l, m) => if pinOf i l = p then m else s.mode p
      | none => s.mode p := by
  have hm : ∀ u : State, u.pinMode = s.pinMode → u.mode p = s.mode p := by
    intro u hu
    simp [State.mode, hu]
  cases op with
  | await l =>
    rcases microAwait_cases l s with ⟨-, h⟩ | ⟨-, -, h⟩ | ⟨-, -, h⟩ <;> rw [execMicro, h] <;>
      exact hm _ (afterLineRead_frame l s).1
  | sampleAck => exact hm _ (afterLineRead_frame .sda s).1
  | sampleBit => exact hm _ (afterLineRead_frame .sda s).1
  | wait => rfl
  | shift => rfl
  | rel l => simp [execMicro, microRel, hc, writtenLine, mode_setModeOp]
  | drv l => simp [execMicro, microDrv, hc, writtenLine, mode_setModeOp]
  | putbit => simp [execMicro, microPutbit, hc, writtenLine, mode_setModeOp]
  | putack => simp [execMicro, microPutack, hc, writtenLine, mode_setModeOp]

/-- The pins after a step of the command in flight. -/
theorem exec_mode {i : Instr} {op : MicroOp} {s t : State} (hr : runs i op s)
    (h : exec i s = .next t) (p : Pin) :
    t.mode p =
      match writtenLine i s op with
      | some (l, m) => if pinOf i l = p then m else s.mode p
      | none => s.mode p := by
  rw [← execMicro_mode op p hr.2.1]
  simp [State.mode, (exec_outcome hr h).1]

/-- SHREG after a step of the command in flight: only SHIFT writes it (40_line_driver R112). -/
theorem exec_shreg {i : Instr} {op : MicroOp} {s t : State} (hr : runs i op s)
    (h : exec i s = .next t) : t.shreg = if op = .shift then shiftLeft s.shreg else s.shreg := by
  rw [(exec_outcome hr h).2.1]
  cases op with
  | await l =>
    rcases microAwait_cases l s with ⟨-, h⟩ | ⟨-, -, h⟩ | ⟨-, -, h⟩ <;> rw [execMicro, h] <;>
      simpa using (afterLineRead_frame l s).2.2.2.1
  | sampleAck => simpa [execMicro, microSampleAck] using (afterLineRead_frame .sda s).2.2.2.1
  | sampleBit => simpa [execMicro, microSampleBit] using (afterLineRead_frame .sda s).2.2.2.1
  | wait => rfl
  | shift => rfl
  | rel l => rfl
  | drv l => rfl
  | putbit => rfl
  | putack => rfl

/-- The history grows by one micro-operation. -/
theorem driversAt_succ {i : Instr} {n : Nat} {op : MicroOp} (h : (sequenceOf i)[n]? = some op) :
    driversAt i (n + 1) = driversStep i (driversAt i n) op := by
  simp [driversAt, List.take_add_one, h]

@[simp] theorem driversAt_zero (i : Instr) : driversAt i 0 = Drivers.none := by
  simp [driversAt]

/-- SHIFTs done, which depend on the kind of command only. -/
theorem driversAt_shifts (i : Instr) (n : Nat) :
    (driversAt i n).shifts = ((sequenceOf i).take n).countP (· == .shift) := by
  have key : ∀ (ops : List MicroOp) (h : Drivers),
      (ops.foldl (driversStep i) h).shifts = h.shifts + ops.countP (· == .shift) := by
    intro ops
    induction ops with
    | nil => intro h; simp
    | cons op rest ih =>
      intro h
      rw [List.foldl_cons, ih]
      cases op with
      | rel l => cases l <;> simp [driversStep]
      | drv l => cases l <;> simp [driversStep]
      | shift => simp [driversStep]; omega
      | await l => simp [driversStep]
      | wait => simp [driversStep]
      | putbit => simp [driversStep]
      | sampleAck => simp [driversStep]
      | sampleBit => simp [driversStep]
      | putack => simp [driversStep]
  rw [driversAt, key]
  simp [Drivers.none]

/-- The clock a PUTBIT stands in: at index 7k + 1, after k SHIFTs, k at most 7 (42_byte_transfer
R161). -/
theorem shifts_at_putbit {i : Instr} {n : Nat} (h : (sequenceOf i)[n]? = some .putbit) :
    (driversAt i n).shifts ≤ 7 ∧ n = 7 * (driversAt i n).shifts + 1 := by
  have key : everyEntry (sequenceOf i) (fun n op => op != .putbit ||
      decide (((sequenceOf i).take n).countP (· == .shift) ≤ 7 ∧
        n = 7 * ((sequenceOf i).take n).countP (· == .shift) + 1)) = true := by
    cases i <;> rfl
  have := everyEntry_get key h
  rw [driversAt_shifts]
  simpa using this

/-- The bit a byte shows at bit 7 after k left shifts. -/
theorem msb_of_shifted (d : Byte) {k : Nat} (h : k ≤ 7) :
    (d <<< k).getLsbD 7 = d.getLsbD (7 - k) := by
  have : ¬ 7 < k := by omega
  rw [BitVec.getLsbD_shiftLeft]
  simp [this]

/-- What a PUTBIT of a command in flight writes: bit 7 - k of its byte in clock k + 1. -/
theorem putbit_level {i : Instr} {s : State} (hf : InFlight i s) (hr : runs i .putbit s) :
    currentBit s = i.dataByte.getLsbD (7 - (driversAt i s.upc.toNat).shifts) := by
  have h4 := (only_in hr.2.2).1 (.inl rfl)
  rw [currentBit, hf.shregShifted h4, msb_of_shifted _ (shifts_at_putbit hr.2.2).1]

/-- The mode a micro-operation writes is the one the history records for it. -/
theorem driversStep_written {i : Instr} {op : MicroOp} {s : State} (hf : InFlight i s)
    (hr : runs i op s) :
    let h := driversAt i s.upc.toNat
    (driversStep i h op).sda =
      (match writtenLine i s op with | some (.sda, m) => some m | _ => h.sda) ∧
    (driversStep i h op).scl =
      (match writtenLine i s op with | some (.scl, m) => some m | _ => h.scl) := by
  cases op with
  | rel l => cases l <;> exact ⟨rfl, rfl⟩
  | drv l => cases l <;> exact ⟨rfl, rfl⟩
  | putbit => exact ⟨by simp [driversStep, writtenLine, putbit_level hf hr], rfl⟩
  | shift => exact ⟨rfl, rfl⟩
  | await l => exact ⟨rfl, rfl⟩
  | wait => exact ⟨rfl, rfl⟩
  | sampleAck => exact ⟨rfl, rfl⟩
  | sampleBit => exact ⟨rfl, rfl⟩
  | putack => exact ⟨rfl, rfl⟩

/-- Every AWAIT stands right after a release of its line (40_line_driver R104). -/
theorem rel_before_await {i : Instr} {n : Nat} (h : (sequenceOf i)[n + 1]? = some (.await .scl)) :
    (sequenceOf i)[n]? = some (.rel .scl) := by
  have key : everyEntry (sequenceOf i) (fun n op => op != .await .scl ||
      (sequenceOf i)[n - 1]? == some (.rel .scl)) = true := by
    cases i <;> rfl
  have := everyEntry_get key h
  simpa using this

/-- With two pins, a step of the command in flight leaves each line in the mode the history one
micro-operation on records for it. -/
theorem drivers_after {i : Instr} {op : MicroOp} {s t : State} (hf : InFlight i s)
    (hr : runs i op s) (h : exec i s = .next t) (hne : i.sda ≠ i.scl) :
    agrees (driversAt i (s.upc.toNat + 1)).sda (t.mode i.sda) = true ∧
    agrees (driversAt i (s.upc.toNat + 1)).scl (t.mode i.scl) = true := by
  have hw := driversStep_written hf hr
  simp only [← driversAt_succ hr.2.2] at hw
  have hd := hf.sdaDriver hne
  have hc := hf.sclDriver hne
  rw [hw.1, hw.2, exec_mode hr h, exec_mode hr h]
  rcases writtenLine i s op with _ | ⟨_ | _, m⟩
  · exact ⟨hd, hc⟩
  · exact ⟨by simp [pinOf, agrees], by simpa [pinOf, hne] using hc⟩
  · exact ⟨by simpa [pinOf, Ne.symm hne] using hd, by simp [pinOf, agrees]⟩

/-- A pin agrees with a recorded mode exactly when it is in it. -/
@[simp] theorem agrees_some (m x : PinMode) : agrees (some m) x = true ↔ x = m := by
  simp only [agrees, beq_iff_eq]
  exact eq_comm

end Sys2Proof.Machine
end

