-- ==== Sys2Proof/Laws/PerInstr.lean ====
section
/-! SUPPORT. Statements made once per constructor of Instr. -/

namespace Sys2Proof.Laws

/-- The word of a command carries each of its fields where 30_encoding R74 puts it, with RSV = 0. -/
def EncodedFields.Statement (i : Instr) : Prop :=
  sdaField (encode i) = i.sda ∧ sclField (encode i) = i.scl ∧ opField (encode i) = i.opcode ∧
    rsvField (encode i) = 0 ∧ ackField (encode i) = i.ackBit ∧ dataField (encode i) = i.dataByte

theorem EncodedFields.init (sda scl : Pin) : EncodedFields.Statement (.init sda scl) := by
  simp [EncodedFields.Statement]

theorem EncodedFields.start (sda scl : Pin) : EncodedFields.Statement (.start sda scl) := by
  simp [EncodedFields.Statement]

theorem EncodedFields.stop (sda scl : Pin) : EncodedFields.Statement (.stop sda scl) := by
  simp [EncodedFields.Statement]

theorem EncodedFields.write (sda scl : Pin) (d : Byte) :
    EncodedFields.Statement (.write sda scl d) := by
  simp [EncodedFields.Statement]

theorem EncodedFields.read (sda scl : Pin) (a : Bool) :
    EncodedFields.Statement (.read sda scl a) := by
  simp [EncodedFields.Statement]

end Sys2Proof.Laws
end

