-- ==== Sys2Proof/Tests/Slice0.lean ====
section
/-! SUPPORT. Tests, and for every statement that has hypotheses a state that meets them. Expected
values are those of spec/95_test_vectors.md (the section is named at each test) or of the rule named. -/

namespace Sys2Proof.Tests

open Sys2Proof Sys2Proof.Machine

/-! ### Small states -/

/-- Pins 4 and 5 in the given modes, all others Unknown. -/
def pins45 (sda scl : PinMode) : Vector PinMode 16 :=
  ((Vector.replicate 16 PinMode.unknown).set 4 sda).set 5 scl

/-- BUSY = 0, pins 4 and 5 and STATUS as given. -/
def idle (sda scl : PinMode) (phase : Phase) (ack : Bool) : State :=
  { State.reset with pinMode := pins45 sda scl, status := ⟨phase, false, .ok, ack, 0⟩ }

/-- The command `i` in flight at index `n`, pins 4 and 5 as given. -/
def running (i : Instr) (n : BitVec 7) (sda scl : PinMode) : State :=
  { State.reset with
    pinMode := pins45 sda scl, cur := encode i, upc := n
    status := ⟨.started, true, .ok, false, 0⟩ }

/-- The next state of a command's step, where it answers one. -/
def after (i : Instr) (s : State) : Option State :=
  match exec i s with
  | .next t => some t
  | .fault _ => none
  | .refused _ => none

/-- The next state of a step, where it answers one. -/
def afterStep (s : State) : Option State :=
  match step s with
  | .next t => some t
  | .fault _ => none
  | .refused _ => none

/-- A step answers a next state that passes a check, by evaluating the check. -/
theorem step_passes {s : State} {c : State → Bool} (h : (afterStep s).any c = true) :
    ∃ t, step s = .next t ∧ c t = true := by
  unfold afterStep at h
  cases hs : step s with
  | next t => rw [hs] at h; exact ⟨t, rfl, h⟩
  | fault f => rw [hs] at h; cases h
  | refused r => rw [hs] at h; cases h

/-- The same of one command's step. -/
theorem exec_passes {i : Instr} {s : State} {c : State → Bool} (h : (after i s).any c = true) :
    ∃ t, exec i s = .next t ∧ c t = true := by
  unfold after at h
  cases hs : exec i s with
  | next t => rw [hs] at h; exact ⟨t, rfl, h⟩
  | fault f => rw [hs] at h; cases h
  | refused r => rw [hs] at h; cases h

/-! ### WellFormed: each of the four checks refuses an ill-formed word (30_encoding R77) -/

theorem test_legal_opcodes :
    opDefined 1 = true ∧ opDefined 5 = true ∧ opDefined 0 = false ∧ opDefined 6 = false ∧
      opDefined 15 = false := by decide

theorem test_legal_rsv : fieldsLegal 1 1 false 0 = false ∧ fieldsLegal 5 7 false 0 = false := by
  decide

theorem test_legal_ack : fieldsLegal 3 0 true 0 = false ∧ fieldsLegal 5 0 true 0 = true := by decide

theorem test_legal_data : fieldsLegal 2 0 false 1 = false ∧ fieldsLegal 4 0 false 1 = true := by
  decide

theorem test_wellFormed : (Instr.write 15 15 0xFF).wellFormed = true ∧
    (Instr.read 4 5 true).wellFormed = true := by decide

/-! ### Handles (95_test_vectors 2.1) -/

theorem test_handle_values :
    encodeHandle 4 5 = 0x45 ∧ encodeHandle 0 0 = 0x00 ∧ encodeHandle 15 15 = 0xFF ∧
    encodeHandle 16 5 = 0x05 ∧ encodeHandle 0x13 0x2A = 0x3A ∧ encodeHandle (-1) 2 = 0xF2 := by decide

theorem test_handle_nibbles :
    sdaOf 0xA7 = 10 ∧ sclOf 0xA7 = 7 ∧ sdaOf (encodeHandle 16 5) = 0 ∧
      sclOf (encodeHandle 16 5) = 5 := by decide

/-! ### Decoding: words written out bit by bit from the patterns of R77 -/

theorem test_decode_init : decode 0b010001010001000000000000 = .ok (.init 4 5) := by rfl

theorem test_decode_start : decode 0b010001010010000000000000 = .ok (.start 4 5) := by rfl

theorem test_decode_stop : decode 0b010001010011000000000000 = .ok (.stop 4 5) := by rfl

theorem test_decode_write : decode 0b010001010100000010100101 = .ok (.write 4 5 0xA5) := by rfl

theorem test_decode_read :
    decode 0b111100000101000100000000 = .ok (.read 15 0 true) ∧
      decode 0b111100000101000000000000 = .ok (.read 15 0 false) := ⟨rfl, rfl⟩

/-- The ILLEGAL rows of 95_test_vectors 2.2. -/
theorem test_decode_illegal :
    [0x450000, 0x456000, 0x45F000, 0x451200, 0x452001, 0x453100, 0x454100, 0x455101, 0x455E00].all
      (fun w : Word => (decode w).toOption == none) = true := by decide

theorem test_encode :
    encode (.init 4 5) = 0x451000 ∧ encode (.start 4 5) = 0x452000 ∧ encode (.stop 4 5) = 0x453000 ∧
    encode (.write 4 5 0xA5) = 0x4540A5 ∧ encode (.read 4 5 true) = 0x455100 := by decide

theorem test_table_word :
    decodeTableWord 24 0x4540A5 = some (.write 4 5 0xA5) ∧ decodeTableWord 24 0x456000 = none := by
  decide

/-! ### One step of each command -/

/-- Acceptance of `0x4540A5` after an ACKed WRITE: STATUS reads 0x2900 (95_test_vectors 2.2). -/
theorem test_write_accept :
    ((after (.write 4 5 0xA5) (idle .released .drivenLow .addressPhase true)).map
      fun t => (t.cur, t.upc, t.shreg, t.acks, t.polls, statusWord t.status)) =
      some (0x4540A5, 0, 0xA5, false, 0, 0x2900) := by decide

/-- Acceptance of `0x455100` clears ACC (95_test_vectors 2.2). -/
theorem test_read_accept :
    ((after (.read 4 5 true) { idle .released .drivenLow .dataPhase false with acc := 0xFF }).map
      fun t => (t.acc, t.status.busy)) = some (0x00, true) := by decide

/-- INIT of `0x44`, both fields pin 4, ends with pin 4 Released (95_test_vectors 2.4). -/
theorem test_init_same_pin :
    ((after (.init 4 4) (running (.init 4 4) 1 .released .unknown)).map
      fun t => (t.mode 4, t.mode 5, t.status.busy, t.upc)) =
      some (.released, .unknown, false, 2) := by decide

/-- START index 4 drives SDA low (95_test_vectors L1-2). -/
theorem test_start_drives_sda :
    ((after (.start 4 5) (running (.start 4 5) 4 .released .released)).map
      fun t => (t.mode 4, t.mode 5, t.upc)) = some (.drivenLow, .released, 5) := by decide

/-- START ends Started, with both lines driven low: STATUS 0x1000 (95_test_vectors L1-2). -/
theorem test_start_completes :
    ((after (.start 4 5) (running (.start 4 5) 5 .drivenLow .released)).map
      fun t => (t.mode 4, t.mode 5, statusWord t.status)) =
      some (.drivenLow, .drivenLow, 0x1000) := by decide

/-- STOP ends Idle, with both lines released: STATUS 0x0000 (95_test_vectors L1-2). -/
theorem test_stop_completes :
    ((after (.stop 4 5) (running (.stop 4 5) 6 .drivenLow .released)).map
      fun t => (t.mode 4, t.mode 5, statusWord t.status)) =
      some (.released, .released, 0x0000) := by decide

/-- Bounded N = 1, a slave stretching at STOP's index 4: STATUS 0x1200 (95_test_vectors 2.6). -/
theorem test_stop_timeout :
    ((after (.stop 4 5)
      { running (.stop 4 5) 4 .drivenLow .released with
        stretchLimit := .bounded 1, draws := [true] }).map
      fun t => (t.mode 4, t.mode 5, statusWord t.status)) =
      some (.drivenLow, .released, 0x1200) := by decide

/-- PUTBIT with SHREG = 0x4A drives SDA low (95_test_vectors 2.3). -/
theorem test_write_putbit :
    ((after (.write 4 5 0xA5) { running (.write 4 5 0xA5) 8 .released .drivenLow with shreg := 0x4A }).map
      fun t => (t.mode 4, t.upc)) = some (.drivenLow, 9) := by decide

/-- SAMPLE_BIT with ACC = 0x80 and SDA high gives 0x01 (95_test_vectors 2.3). -/
theorem test_read_sample :
    ((after (.read 4 5 true)
      { running (.read 4 5 true) 6 .released .released with acc := 0x80, draws := [false] }).map
      fun t => (t.acc, t.upc)) = some (0x01, 7) := by decide

/-- An ILLEGAL word leaves STATUS 0x2400 from 0x2100 (95_test_vectors 2.2). -/
theorem test_illegal_status :
    ((afterStep { idle .released .drivenLow .addressPhase true with host := [.writeCmd 0x451200] }).map
      fun t => (t.mode 4, t.mode 5, statusWord t.status, t.events)) =
      some (.released, .drivenLow, 0x2400, [.refuse 0x451200]) := by decide

/-- A reset in mid-WRITE leaves STATUS 0x0000, UPC 0 and the pins Unknown (95_test_vectors 2.9). -/
theorem test_reset_mid_write :
    ((afterStep { running (.write 4 5 0xA5) 30 .released .drivenLow with host := [.reset] }).map
      fun t => (t.mode 4, t.mode 5, t.upc, t.cur, statusWord t.status)) =
      some (.unknown, .unknown, 0, 0, 0x0000) := by decide

/-- The first step after reset runs the word `withFetchWord` offers. -/
theorem test_fetch :
    ((afterStep (State.reset.withFetchWord 24 0x4540A5)).map fun t => (t.cur, t.shreg, t.status.busy)) =
      some (0x4540A5, 0xA5, true) := by decide

/-! ### The assembler (30_encoding R82 to R88) -/

/-- P3's second line (95_test_vectors P3): START, then the address byte of 0x3C. -/
theorem test_assemble_begin_tx :
    assembleLine (.beginTx (.pins 4 5) 0x3C) = .ok [0x452000, 0x454078] := by rfl

/-- `REQUEST_FROM 4:5, 0x50, n` gives the same two words for every n (95_test_vectors L1-6). -/
theorem test_assemble_request :
    assembleLine (.requestFrom (.literal 0x45) 0x50 0) = .ok [0x452000, 0x4540A1] ∧
    assembleLine (.requestFrom (.literal 0x45) 0x50 3) = .ok [0x452000, 0x4540A1] := ⟨rfl, rfl⟩

theorem test_assembler_refuses :
    assembleLine (.init (.pins 16 5)) = .error .pinTooLarge ∧
    assembleLine (.beginTx (.literal 0x45) 128) = .error .addressTooLarge ∧
    assembleLine (.write (.literal 0x45) 256) = .error .byteTooLarge ∧
    assembleLine (.stop (.literal 256)) = .error .handleTooWide := ⟨rfl, rfl, rfl, rfl⟩

theorem test_assemble_text :
    assembleText ("WRITE 4:5, 0xA5 ; data\nREAD 0x45, NACK".toList) = .ok [0x4540A5, 0x455000] := by
  rfl

/-! ### The waveform (41_bus_conditions R130) -/

/-- START on an idle bus (95_test_vectors L1-2): (1,1), (1,1), (1,1), (0,1), (0,0), one START. -/
theorem test_start_waveform :
    let es : List Event := [.mode 4 .released, .mode 5 .released, .sample 5 .high, .wait,
      .mode 4 .drivenLow, .mode 5 .drivenLow]
    let w := waveform 4 5 (fun _ _ => false) (pins45 .released .released) es
    w = [(.high, .high), (.high, .high), (.high, .high), (.low, .high), (.low, .low)] ∧
      countConditions isStartCondition w = 1 ∧ countConditions isStopCondition w = 0 := by decide

/-- The host's duties: a blocking host is disciplined, and writing CMD twice in a row is not. -/
theorem test_disciplined :
    disciplined false (blockingActions [0x452000, 0x453000]) = true ∧
    disciplined false [.writeCmd 0x452000, .writeCmd 0x453000] = false ∧
    disciplined true [.waitIdle, .writeCmd 0x453000] = true := by decide

/-- The boot order, and the READs of a transaction, on the commands of P2 (95_test_vectors P2). -/
theorem test_host_duties :
    bootsWithInit [.init 4 5, .start 4 5, .write 4 5 0xA1, .read 4 5 false, .stop 4 5] = true ∧
    bootsWithInit [.start 4 5, .stop 4 5] = false ∧
    lastReadNacked [.read 4 5 true, .read 4 5 true, .read 4 5 false, .stop 4 5] = true ∧
    lastReadNacked [.read 4 5 true, .stop 4 5] = false := by decide

/-! ### Witnesses: states and operands that meet the hypotheses of the statements

One theorem for each statement of Certificates/Slice0/Obligations.lean that has hypotheses, named
after it; a statement of several clauses gets each clause met. -/

theorem witness_HandleRoundTripAndTruncation :
    (∃ p q : Nat, (15 < p ∨ 15 < q) ∧ p = 16 ∧ q = 0) ∧
    (∃ p q : Nat, (15 < p ∨ 15 < q) ∧ p = 0 ∧ q = 16) :=
  ⟨⟨16, 0, by decide, rfl, rfl⟩, ⟨0, 16, by decide, rfl, rfl⟩⟩

theorem witness_DecoderAcceptsExactlyLegalWords :
    ∃ w i r, decode w = .ok i ∧ r ∈ opcodeTable ∧ r.covers w = true :=
  ⟨0x4540FF, .write 4 5 0xFF, ⟨"WRITE", 0x004000, 0x00FF00⟩, rfl, by decide, by decide⟩

/-- Both sides of the disjunction occur. -/
theorem witness_EveryWordOneCommandOrIllegal :
    (∃ w i, decode w = .ok i) ∧ ∃ w e, decode w = .error e :=
  ⟨⟨0x451000, .init 4 5, rfl⟩, ⟨0x000000, .reservedOpcode, rfl⟩⟩

theorem witness_ExternalResetFromAnyState :
    ∃ s : State, ∃ rest, s.host = .reset :: rest ∧ s.status.busy = true :=
  ⟨{ running (.write 4 5 0xA5) 30 .released .drivenLow with host := [.reset] }, [], rfl, rfl⟩

theorem witness_ReadStatusChangesNothing :
    ∃ s : State, ∃ rest, s.host = .readStatus :: rest ∧ s.status.busy = true :=
  ⟨{ running (.start 4 5) 2 .released .released with host := [.readStatus] }, [], rfl, rfl⟩

/-- An acceptance, and a step of a command that does not end it. -/
theorem witness_StatusHeldWhileBusy :
    (∃ s t : State, step s = .next t ∧ s.host.head? ≠ some .reset ∧ s.status.busy = false ∧
      t.status.busy = true) ∧
    (∃ s t : State, step s = .next t ∧ s.host.head? ≠ some .reset ∧ s.status.busy = true ∧
      t.status.busy = true) := by
  constructor
  · obtain ⟨t, h, c⟩ := step_passes (c := fun t => t.status.busy) (s :=
      { idle .released .released .idle false with host := [.writeCmd 0x452000] }) (by decide)
    exact ⟨_, t, h, by decide, rfl, c⟩
  · obtain ⟨t, h, c⟩ := step_passes (c := fun t => t.status.busy)
      (s := running (.start 4 5) 3 .released .released) (by decide)
    exact ⟨_, t, h, by decide, rfl, c⟩

/-- A completion; a step with BUSY = 0; one that leaves BUSY = 1; one that ends with TIMEOUT. -/
theorem witness_PhaseTransitions :
    (∃ (s t : State) (i : Instr), step s = .next t ∧ s.host.head? ≠ some .reset ∧
      s.status.busy = true ∧ t.status.busy = false ∧ t.status.st = .ok ∧ decode s.cur = .ok i) ∧
    (∃ s t : State, step s = .next t ∧ s.host.head? ≠ some .reset ∧ s.status.busy = false) ∧
    (∃ s t : State, step s = .next t ∧ s.host.head? ≠ some .reset ∧ t.status.busy = true) ∧
    (∃ s t : State, step s = .next t ∧ s.host.head? ≠ some .reset ∧ t.status.st ≠ .ok) := by
  refine ⟨?_, ?_, ?_, ?_⟩
  · obtain ⟨t, h, c⟩ := step_passes (c := fun t => !t.status.busy && t.status.st == .ok)
      (s := running (.start 4 5) 5 .drivenLow .released) (by decide)
    simp only [Bool.and_eq_true, Bool.not_eq_true', beq_iff_eq] at c
    exact ⟨_, t, .start 4 5, h, by decide, rfl, c.1, c.2, rfl⟩
  · exact ⟨State.reset, State.reset, rfl, by decide, rfl⟩
  · obtain ⟨t, h, c⟩ := step_passes (c := fun t => t.status.busy)
      (s := running (.start 4 5) 3 .released .released) (by decide)
    exact ⟨_, t, h, by decide, c⟩
  · obtain ⟨t, h, c⟩ := step_passes (c := fun t => t.status.st != .ok)
      (s := { running (.start 4 5) 2 .released .released with
        stretchLimit := .bounded 1, draws := [true] }) (by decide)
    exact ⟨_, t, h, by decide, by simpa using c⟩

theorem witness_CommandsDoNotReadStatusFields :
    ∃ (i : Instr) (s t : State) (x : Status), x.busy = s.status.busy ∧ x ≠ s.status ∧
      exec i s = .next t := by
  obtain ⟨t, h, -⟩ := exec_passes (c := fun _ => true) (i := .start 4 5)
    (s := running (.start 4 5) 5 .drivenLow .released) (by decide)
  exact ⟨_, _, t, ⟨.dataPhase, true, .illegal, true, 7⟩, rfl, by decide, h⟩

theorem witness_WriteCmdAcceptsOrRefuses :
    (∃ (s : State) (w : Word) (rest : List HostAction), s.host = .writeCmd w :: rest ∧
      s.status.busy = false ∧ legalWord w = true) ∧
    (∃ (s : State) (w : Word) (rest : List HostAction), s.host = .writeCmd w :: rest ∧
      s.status.busy = false ∧ legalWord w = false) ∧
    (∃ (s : State) (w : Word) (rest : List HostAction), s.host = .writeCmd w :: rest ∧
      s.status.busy = true) :=
  ⟨⟨{ idle .released .released .idle false with host := [.writeCmd 0x452000] }, 0x452000, [], rfl,
      rfl, by decide⟩,
    ⟨{ idle .released .released .idle false with host := [.writeCmd 0x456000] }, 0x456000, [], rfl,
      rfl, by decide⟩,
    ⟨{ running (.start 4 5) 2 .released .released with host := [.writeCmd 0x453000] }, 0x453000, [],
      rfl, rfl⟩⟩

/-- Each ground of illegality, at the boundary of its field. -/
theorem witness_IllegalWordRefused :
    ∀ w ∈ [(0x450000 : Word), 0x456000, 0x45F000, 0x451200, 0x453100, 0x452001],
      ∃ (s : State) (rest : List HostAction), s.host = .writeCmd w :: rest ∧
        s.status.busy = false ∧
        (opField w = 0 ∨ 6 ≤ (opField w).toNat ∨ rsvField w ≠ 0 ∨
          (ackField w = true ∧ opField w ≠ 5) ∨ (dataField w ≠ 0 ∧ opField w ≠ 4)) := by
  intro w hw
  refine ⟨{ State.reset with host := [.writeCmd w] }, [], rfl, rfl, ?_⟩
  simp only [List.mem_cons, List.not_mem_nil, or_false] at hw
  rcases hw with rfl | rfl | rfl | rfl | rfl | rfl <;> decide

theorem witness_EveryCommandAccepted : ∃ s : State, s.status.busy = false :=
  ⟨State.reset, rfl⟩

theorem witness_StepRunsDecodedCommand :
    (∃ (s : State) (w : Word) (rest : List HostAction) (i : Instr), s.host = .writeCmd w :: rest ∧
      s.status.busy = false ∧ decode w = .ok i) ∧
    (∀ l : List HostAction, ∃ (s : State) (i : Instr), s.status.busy = true ∧ decode s.cur = .ok i ∧
      s.host = l) ∧
    (∀ l : List HostAction, ∃ s : State, s.status.busy = false ∧ s.host = l) ∧
    (∃ (w : Nat) (i : Instr), decodeTableWord 24 w = some i) :=
  ⟨⟨{ State.reset with host := [.writeCmd 0x451000] }, 0x451000, [], .init 4 5, rfl, rfl, rfl⟩,
    fun l => ⟨{ State.reset with cur := 0x452000, status := ⟨.idle, true, .ok, false, 0⟩, host := l },
      .start 4 5, rfl, test_decode_start, rfl⟩,
    fun l => ⟨{ State.reset with host := l }, rfl, rfl⟩,
    ⟨0x4540A5, .write 4 5 0xA5, rfl⟩⟩

theorem witness_InFlightCommandAlwaysSteps :
    runs (.start 4 5) (.rel .sda) (running (.start 4 5) 0 .unknown .unknown) ∧
    runs (.write 4 5 0) (.drv .scl) (running (.write 4 5 0) 63 .released .released) :=
  ⟨⟨rfl, rfl, rfl⟩, ⟨rfl, rfl, rfl⟩⟩

theorem witness_ReleaseAndDriveSetOneMode :
    (∃ i l s, moreToRun i s ∧ runs i (.rel l) s) ∧ (∃ i l s, moreToRun i s ∧ runs i (.drv l) s) :=
  ⟨⟨.start 4 5, .scl, running (.start 4 5) 1 .released .drivenLow, by unfold moreToRun; decide, rfl, rfl, rfl⟩,
    ⟨.stop 4 5, .scl, running (.stop 4 5) 0 .drivenLow .drivenLow, by unfold moreToRun; decide, rfl, rfl, rfl⟩⟩

theorem witness_WaitOnlyRecords :
    runs (.start 4 5) .wait (running (.start 4 5) 3 .released .released) := ⟨rfl, rfl, rfl⟩

/-- A high read, a low read with no limit, and a low read one short of the limit. -/
theorem witness_AwaitPollAdvancesOrHolds :
    (∃ i s, runs i (.await .scl) s ∧ readLevel i.scl s = .high) ∧
    (∃ i s, runs i (.await .scl) s ∧ readLevel i.scl s = .low ∧
      s.stretchLimit ≠ .bounded (s.polls + 1) ∧ s.stretchLimit = .unbounded) ∧
    (∃ i s, runs i (.await .scl) s ∧ readLevel i.scl s = .low ∧
      s.stretchLimit ≠ .bounded (s.polls + 1) ∧ s.stretchLimit = .bounded 3 ∧ s.polls = 1) :=
  ⟨⟨.start 4 5, { running (.start 4 5) 2 .released .released with draws := [false] },
      ⟨rfl, rfl, rfl⟩, by decide⟩,
    ⟨.write 4 5 7, { running (.write 4 5 7) 60 .released .released with draws := [true] },
      ⟨rfl, rfl, rfl⟩, by decide, by decide, rfl⟩,
    ⟨.stop 4 5, { running (.stop 4 5) 4 .drivenLow .released with
        draws := [true], stretchLimit := .bounded 3, polls := 1 },
      ⟨rfl, rfl, rfl⟩, by decide, by decide, rfl, rfl⟩⟩

/-- A command at an AWAIT whose next low read is the last. -/
def lastPoll (i : Instr) (n : BitVec 7) : State :=
  { running i n .released .released with draws := [true], stretchLimit := .bounded 1 }

/-- The limit reached, and a step that ends with TIMEOUT, at the first AWAIT of each command that has
one and at the last of WRITE and READ, from a state whose ST is OK and from one whose ST is already
TIMEOUT. -/
theorem witness_TimeoutExactlyOnNthLowRead :
    (∃ i s, runs i (.await .scl) s ∧ readLevel i.scl s = .low ∧
      s.stretchLimit = .bounded (s.polls + 1)) ∧
    (∀ before ∈ [St.ok, .timeout],
      ∀ x ∈ [(Instr.start 4 5, (2 : BitVec 7)), (.stop 4 5, 4), (.write 4 5 0xA0, 4),
        (.write 4 5 0xA0, 53), (.write 4 5 0xA0, 60), (.read 4 5 true, 4), (.read 4 5 true, 60)],
      ∃ s t : State, s = { lastPoll x.1 x.2 with status := ⟨.started, true, before, false, 0⟩ } ∧
        exec x.1 s = .next t ∧ t.status.busy = false ∧ t.status.st = .timeout ∧
        t.events = s.events ++ [.sample x.1.scl .low, .abort .timeout]) := by
  constructor
  · exact ⟨.start 4 5, lastPoll (.start 4 5) 2, ⟨rfl, rfl, rfl⟩, by decide, rfl⟩
  · intro before hb x hx
    have key : (after x.1 { lastPoll x.1 x.2 with status := ⟨.started, true, before, false, 0⟩ }).any
        (fun t => !t.status.busy && t.status.st == .timeout &&
          t.events == [.sample x.1.scl .low, .abort .timeout]) = true := by
      revert x before
      decide
    obtain ⟨t, h, c⟩ := exec_passes key
    simp only [Bool.and_eq_true, Bool.not_eq_true', beq_iff_eq] at c
    exact ⟨_, t, rfl, h, c.1.1, c.1.2, c.2⟩

theorem witness_PutbitAndShiftOfWrite :
    runs (.write 4 5 0xA5) .putbit (running (.write 4 5 0xA5) 1 .drivenLow .drivenLow) ∧
    runs (.write 4 5 0xA5) .shift (running (.write 4 5 0xA5) 55 .released .released) :=
  ⟨⟨rfl, rfl, rfl⟩, ⟨rfl, rfl, rfl⟩⟩

theorem witness_AcksOfAcceptanceAndSample :
    (idle .released .drivenLow .addressPhase true).status.busy = false ∧
    runs (.write 4 5 0xA5) .sampleAck (running (.write 4 5 0xA5) 62 .released .released) :=
  ⟨rfl, rfl, rfl, rfl⟩

theorem witness_SampleBitOfRead :
    runs (.read 4 5 true) .sampleBit (running (.read 4 5 true) 6 .released .released) ∧
    runs (.read 4 5 false) .sampleBit (running (.read 4 5 false) 55 .released .released) :=
  ⟨⟨rfl, rfl, rfl⟩, ⟨rfl, rfl, rfl⟩⟩

theorem witness_PutackOfRead :
    runs (.read 4 5 true) .putack (running (.read 4 5 true) 57 .released .drivenLow) :=
  ⟨rfl, rfl, rfl⟩

theorem witness_LevelOfLine :
    ∃ s : State, s.mode 4 = .drivenLow ∧ s.mode 5 = .released ∧ s.mode 6 = .unknown :=
  ⟨idle .drivenLow .released .idle false, by decide, by decide, by decide⟩

theorem witness_InitReleasesBothAndCompletes :
    runsAt (.init 4 5) 0 (running (.init 4 5) 0 .unknown .unknown) ∧
    runsAt (.init 4 5) 1 (running (.init 4 5) 1 .released .unknown) :=
  ⟨⟨rfl, rfl, rfl⟩, ⟨rfl, rfl, rfl⟩⟩

theorem witness_StartAndStopComplete :
    runsAt (.start 4 5) 5 (running (.start 4 5) 5 .drivenLow .released) ∧
    runsAt (.stop 4 5) 6 (running (.stop 4 5) 6 .drivenLow .released) :=
  ⟨⟨rfl, rfl, rfl⟩, ⟨rfl, rfl, rfl⟩⟩

theorem witness_WriteCompletes :
    runsAt (.write 4 5 0xA5) 63 (running (.write 4 5 0xA5) 63 .released .released) := ⟨rfl, rfl, rfl⟩

theorem witness_ReadCompletes :
    runsAt (.read 4 5 true) 63 (running (.read 4 5 true) 63 .drivenLow .drivenLow) := ⟨rfl, rfl, rfl⟩

/-- Hosts that take no action after the one that starts a command, or wait for BUSY = 0 first. -/
def patientHosts : List (List HostAction) :=
  [[], [.waitIdle], [.waitIdle, .writeCmd 0x453000]]

theorem witness_StartAndStopRuns :
    ∀ i ∈ [Instr.start 4 5, .stop 4 5], ∀ rest ∈ patientHosts, ∃ (s : State) (ds : List Bool),
      s.status.busy = false ∧ leavesTurns rest = true ∧ s.draws = false :: ds ∧
      s.host = .writeCmd (encode i) :: rest := by
  intro i _ rest hr
  refine ⟨{ idle .released .released .idle false with
    draws := [false], host := .writeCmd (encode i) :: rest }, [], rfl, ?_, rfl, rfl⟩
  revert rest
  decide

theorem witness_WriteRunReportsAcknowledge :
    ∀ pulled : Bool, ∀ rest ∈ patientHosts, ∃ (s : State) (ds : List Bool),
      s.status.busy = false ∧ leavesTurns rest = true ∧
      s.host = .writeCmd (encode (.write 4 5 0xA5)) :: rest ∧
      s.draws = List.replicate 9 false ++ pulled :: ds := by
  intro pulled rest hr
  refine ⟨{ idle .drivenLow .drivenLow .started false with
    draws := List.replicate 9 false ++ [pulled]
    host := .writeCmd (encode (.write 4 5 0xA5)) :: rest }, [], rfl, ?_, rfl, rfl⟩
  revert rest
  decide

theorem witness_ReadRunAssemblesByte :
    ∀ b : Byte, ∀ rest ∈ patientHosts, ∃ (s : State) (ds : List Bool),
      s.status.busy = false ∧ leavesTurns rest = true ∧
      s.host = .writeCmd (encode (.read 4 5 true)) :: rest ∧
      s.draws = [false, !b.getLsbD 7, false, !b.getLsbD 6, false, !b.getLsbD 5, false,
        !b.getLsbD 4, false, !b.getLsbD 3, false, !b.getLsbD 2, false, !b.getLsbD 1, false,
        !b.getLsbD 0, false] ++ ds := by
  intro b rest hr
  refine ⟨{ idle .released .drivenLow .addressPhase true with
    draws := [false, !b.getLsbD 7, false, !b.getLsbD 6, false, !b.getLsbD 5, false,
        !b.getLsbD 4, false, !b.getLsbD 3, false, !b.getLsbD 2, false, !b.getLsbD 1, false,
        !b.getLsbD 0, false]
    host := .writeCmd (encode (.read 4 5 true)) :: rest }, [], rfl, ?_, rfl, by simp⟩
  revert rest
  decide

/-! #### States that satisfy the invariant -/

/-- `State.Inv` of a state with the command `i` in flight and POLLS = 0, as a check that can be
evaluated. -/
def inFlightCheck (i : Instr) (s : State) : Bool :=
  s.cur == encode i && (decode (encode i)).toOption == some i && s.status.busy && s.polls == 0 &&
  s.stretchLimit.valid && decide (s.upc.toNat < (sequenceOf i).length) &&
  (!((sequenceOf i)[s.upc.toNat]? == some (.await .scl)) || s.mode i.scl == .released) &&
  agrees (driversAt i s.upc.toNat).sda (s.mode i.sda) &&
  agrees (driversAt i s.upc.toNat).scl (s.mode i.scl) &&
  (!(i.opcode == 4) || s.shreg == i.dataByte <<< (driversAt i s.upc.toNat).shifts)

/-- The check gives the invariant, and the command in CUR. -/
theorem inv_of_check {i : Instr} {s : State} (h : inFlightCheck i s = true) :
    s.Inv ∧ decode s.cur = .ok i ∧ s.status.busy = true := by
  simp only [inFlightCheck, Bool.and_eq_true, Bool.or_eq_true, Bool.not_eq_true', beq_iff_eq,
    beq_eq_false_iff_ne, ne_eq, decide_eq_true_eq] at h
  obtain ⟨⟨⟨⟨⟨⟨⟨⟨⟨hc, hd⟩, hb⟩, hp⟩, hl⟩, hu⟩, ha⟩, hs⟩, hk⟩, hr⟩ := h
  have hdec : decode s.cur = .ok i := by
    rw [hc]
    cases hx : decode (encode i) with
    | error e => rw [hx] at hd; cases hd
    | ok j => rw [hx] at hd; injection hd with hd; rw [hd]
  have hlen := length_sequenceOf_le i
  refine ⟨⟨hl, ?_, by omega, fun h0 => (by rw [h0] at hb; cases hb), fun _ => ⟨i, hdec,
    ⟨hu, fun h0 => absurd hp h0, fun h1 => ha.resolve_left (· h1), fun _ => hs, fun _ => hk,
      fun h4 => hr.resolve_left (· h4)⟩⟩⟩, hdec, hb⟩
  rw [hp]
  cases hx : s.stretchLimit with
  | unbounded => rfl
  | bounded n => rw [hx] at hl; exact hl

/-- A command in flight, with the limit and the answers given. -/
def inFlightAt (i : Instr) (n : BitVec 7) (sda scl : PinMode) (shreg : Byte) (limit : StretchLimit)
    (draws : List Bool) : State :=
  { running i n sda scl with shreg := shreg, stretchLimit := limit, draws := draws }

theorem witness_AwaitAlwaysFollowsRelease :
    (∃ (i : Instr) (n : Nat) (l : Line), (sequenceOf i)[n]? = some (.await l)) ∧
    (∃ (i : Instr) (n : Nat), (∀ p q, i ≠ .init p q) ∧ (sequenceOf i)[n]? = some (.rel .scl)) ∧
    (∃ (s : State) (i : Instr) (l : Line), s.Inv ∧ runs i (.await l) s) :=
  ⟨⟨.write 4 5 0, 60, .scl, rfl⟩, ⟨.start 4 5, 1, (fun _ _ h => by cases h), rfl⟩,
    ⟨inFlightAt (.start 4 5) 2 .released .released 0 .unbounded [], .start 4 5, .scl,
      (inv_of_check (i := .start 4 5) (by decide)).1, rfl, rfl, rfl⟩⟩

/-- Two low reads under the limit 3, the last one short of it, and under no limit, with a host that has
no action left and with one that waits. -/
theorem witness_AwaitAdvancesAfterStretch :
    ∀ limit ∈ [StretchLimit.unbounded, .bounded 3], ∀ host ∈ patientHosts,
      ∃ (k : Nat) (i : Instr) (s : State) (ds : List Bool), s.Inv ∧ leavesTurns s.host = true ∧
        runs i (.await .scl) s ∧ s.polls = 0 ∧ s.draws = List.replicate k true ++ false :: ds ∧
        (∀ n, s.stretchLimit = .bounded n → k < n) ∧ k = 2 ∧ s.stretchLimit = limit ∧
        s.host = host := by
  intro limit hl host hh
  refine ⟨2, .start 4 5,
    { inFlightAt (.start 4 5) 2 .released .released 0 limit [true, true, false] with host := host },
    [], (inv_of_check (i := .start 4 5) ?_).1, ?_, ⟨rfl, rfl, rfl⟩, rfl, rfl, ?_, rfl, rfl, rfl⟩
  · revert limit host
    decide
  · show leavesTurns host = true
    revert host
    decide
  · intro n hn
    simp only [inFlightAt] at hn
    simp only [List.mem_cons, List.not_mem_nil, or_false] at hl
    rcases hl with rfl | rfl
    · cases hn
    · injection hn with hn
      omega

/-- Hosts that only watch a command: none left, the blocking wait, a poll of STATUS, and a poll before
the wait and the next command. -/
def watchingHosts : List (List HostAction) :=
  [[], [.waitIdle, .writeCmd 0x453000], [.pass, .readStatus],
    [.readStatus, .waitIdle, .writeCmd 0x453000]]

theorem witness_UnboundedAwaitHangs :
    ∀ host ∈ watchingHosts, ∃ (k : Nat) (i : Instr) (s : State) (ds : List Bool), s.Inv ∧
      onlyWatches s.host = true ∧ runs i (.await .scl) s ∧ s.stretchLimit = .unbounded ∧
      s.draws = List.replicate k true ++ ds ∧ k = 3 ∧ s.host = host := by
  intro host hh
  refine ⟨3, .start 4 5,
    { inFlightAt (.start 4 5) 2 .released .released 0 .unbounded [true, true, true] with
      host := host }, [], (inv_of_check (i := .start 4 5) ?_).1, ?_, ⟨rfl, rfl, rfl⟩, rfl, rfl, rfl,
    rfl⟩ <;> revert host <;> decide

/-- The smallest limit, and the limit of P5 (95_test_vectors P5), with each host. -/
theorem witness_BoundedAwaitTimesOut :
    ∀ n ∈ [1, 3], ∀ host ∈ patientHosts, ∃ (i : Instr) (s : State) (ds : List Bool), s.Inv ∧
      leavesTurns s.host = true ∧ runs i (.await .scl) s ∧ s.polls = 0 ∧
      s.stretchLimit = .bounded n ∧ s.draws = List.replicate n true ++ ds ∧ s.host = host := by
  intro n hn host hh
  refine ⟨.write 4 5 0xA0,
    { inFlightAt (.write 4 5 0xA0) 4 .released .released 0xA0 (.bounded n) (List.replicate n true) with
      host := host }, [], (inv_of_check (i := .write 4 5 0xA0) ?_).1, ?_, ⟨rfl, rfl, rfl⟩, rfl, rfl,
    by simp [inFlightAt], rfl⟩
  · revert n host
    decide
  · show leavesTurns host = true
    revert host
    decide

theorem witness_StepKeepsInvariant : ∃ s t : State, s.Inv ∧ step s = .next t := by
  obtain ⟨t, h, -⟩ := step_passes (c := fun _ => true)
    (s := inFlightAt (.write 4 5 0xA5) 8 .released .drivenLow 0x4A .unbounded []) (by decide)
  exact ⟨_, t, (inv_of_check (i := .write 4 5 0xA5) (by decide)).1, h⟩

theorem witness_DisciplinedHostNeverRefused :
    ∃ s : State, s.Inv ∧ s.status.busy = true ∧
      disciplined s.status.busy s.host = true ∧ s.host ≠ [] :=
  ⟨{ inFlightAt (.start 4 5) 3 .released .released 0 .unbounded [] with
      host := [.readStatus, .waitIdle, .writeCmd 0x453000] },
    (inv_of_check (i := .start 4 5) (by decide)).1, rfl, rfl, by decide⟩

/-- A step of a command that writes one pin and keeps another; a step with BUSY = 0; and a STATUS read
while a command executes. -/
theorem witness_PinModesPersist :
    (∃ s t : State, step s = .next t ∧ s.host.head? ≠ some .reset ∧ s.status.busy = true ∧
      s.host.head? ≠ some .readStatus ∧ t.mode 5 = s.mode 5 ∧ t.mode 4 ≠ s.mode 4) ∧
    (∃ s t : State, step s = .next t ∧ s.host.head? ≠ some .reset ∧ s.status.busy = false) ∧
    (∃ s t : State, step s = .next t ∧ s.host.head? = some .readStatus ∧ s.status.busy = true) := by
  refine ⟨?_, ⟨State.reset, State.reset, rfl, by decide, rfl⟩, ?_⟩
  · obtain ⟨t, h, c⟩ := step_passes
      (c := fun t => t.mode 5 == .released && t.mode 4 == .drivenLow)
      (s := running (.start 4 5) 4 .released .released) (by decide)
    simp only [Bool.and_eq_true, beq_iff_eq] at c
    exact ⟨_, t, h, by decide, rfl, by decide, c.1, by rw [c.2]; decide⟩
  · obtain ⟨t, h, -⟩ := step_passes (c := fun _ => true)
      (s := { running (.start 4 5) 4 .released .released with host := [.readStatus] }) (by decide)
    exact ⟨_, t, h, rfl, rfl⟩

theorem witness_OnlyResetMakesUnknown :
    ∃ (s t : State) (p : Pin), step s = .next t ∧ s.host.head? ≠ some .reset ∧
      t.mode p = .unknown :=
  ⟨State.reset, State.reset, 7, rfl, by decide, by decide⟩

theorem witness_StretchLimitFixed : ∃ s t : State, step s = .next t ∧ s.stretchLimit = .bounded 3 :=
  ⟨{ State.reset with stretchLimit := .bounded 3 }, _, rfl, rfl⟩

theorem witness_RecordOnlyGrows : ∃ s t : State, step s = .next t ∧ t.events.length = 2 := by
  obtain ⟨t, h, c⟩ := step_passes (c := fun t => t.events.length == 2)
    (s := running (.stop 4 5) 6 .drivenLow .released) (by decide)
  exact ⟨_, t, h, by simpa using c⟩

/-- Each command at its last index, on two pins. -/
def lastSteps : List (Instr × State) :=
  [(.init 4 5, inFlightAt (.init 4 5) 1 .released .unknown 0 .unbounded []),
   (.start 4 5, inFlightAt (.start 4 5) 5 .drivenLow .released 0 .unbounded []),
   (.stop 4 5, inFlightAt (.stop 4 5) 6 .drivenLow .released 0 .unbounded []),
   (.write 4 5 0xA5, inFlightAt (.write 4 5 0xA5) 63 .released .released 0 .unbounded []),
   (.read 4 5 true, inFlightAt (.read 4 5 true) 63 .drivenLow .drivenLow 0 .unbounded [])]

theorem witness_PinModesAfterCompletion :
    (∀ x ∈ lastSteps, ∃ t : State, x.2.Inv ∧ x.2.status.busy = true ∧ decode x.2.cur = .ok x.1 ∧
      step x.2 = .next t ∧ x.2.host.head? ≠ some .reset ∧ t.status.busy = false ∧
      t.status.st = .ok ∧ x.1.sda ≠ x.1.scl) ∧
    (∃ (i : Instr) (s t : State), s.Inv ∧ s.status.busy = true ∧ decode s.cur = .ok i ∧
      step s = .next t ∧ s.host.head? ≠ some .reset ∧ t.status.busy = false ∧ t.status.st = .ok ∧
      i.sda = i.scl) := by
  constructor
  · intro x hx
    have key : inFlightCheck x.1 x.2 = true ∧
        (afterStep x.2).any (fun t => !t.status.busy && t.status.st == .ok) = true ∧
        x.2.host.head? ≠ some .reset ∧ x.1.sda ≠ x.1.scl := by
      revert x
      decide
    obtain ⟨hi, hd, hb⟩ := inv_of_check key.1
    obtain ⟨t, h, c⟩ := step_passes key.2.1
    simp only [Bool.and_eq_true, Bool.not_eq_true', beq_iff_eq] at c
    exact ⟨t, hi, hb, hd, h, key.2.2.1, c.1, c.2, key.2.2.2⟩
  · obtain ⟨hi, hd, hb⟩ := inv_of_check (i := .init 4 4)
      (s := inFlightAt (.init 4 4) 1 .released .unknown 0 .unbounded []) (by decide)
    obtain ⟨t, h, c⟩ := step_passes (c := fun t => !t.status.busy && t.status.st == .ok)
      (s := inFlightAt (.init 4 4) 1 .released .unknown 0 .unbounded []) (by decide)
    simp only [Bool.and_eq_true, Bool.not_eq_true', beq_iff_eq] at c
    exact ⟨.init 4 4, _, t, hi, hb, hd, h, by decide, c.1, c.2, rfl⟩

/-- Each kind of AWAIT at the low read that reaches the limit, with both values of the bit and of A. -/
def lastPolls : List (Instr × State) :=
  [(.start 4 5, inFlightAt (.start 4 5) 2 .released .released 0 (.bounded 1) [true]),
   (.stop 4 5, inFlightAt (.stop 4 5) 4 .drivenLow .released 0 (.bounded 1) [true]),
   (.write 4 5 0xA0, inFlightAt (.write 4 5 0xA0) 4 .released .released 0xA0 (.bounded 1) [true]),
   (.write 4 5 0xA0, inFlightAt (.write 4 5 0xA0) 53 .drivenLow .released 0 (.bounded 1) [true]),
   (.write 4 5 0xA0, inFlightAt (.write 4 5 0xA0) 60 .released .released 0 (.bounded 1) [true]),
   (.read 4 5 true, inFlightAt (.read 4 5 true) 4 .released .released 0 (.bounded 1) [true]),
   (.read 4 5 true, inFlightAt (.read 4 5 true) 60 .drivenLow .released 0 (.bounded 1) [true]),
   (.read 4 5 false, inFlightAt (.read 4 5 false) 60 .released .released 0 (.bounded 1) [true])]

theorem witness_PinModesAfterTimeout :
    ∀ x ∈ lastPolls, ∃ t : State, x.2.Inv ∧ x.2.status.busy = true ∧ decode x.2.cur = .ok x.1 ∧
      step x.2 = .next t ∧ x.2.host.head? ≠ some .reset ∧ t.status.busy = false ∧
      t.status.st = .timeout ∧ x.1.sda ≠ x.1.scl := by
  intro x hx
  have key : inFlightCheck x.1 x.2 = true ∧
      (afterStep x.2).any (fun t => !t.status.busy && t.status.st == .timeout) = true ∧
      x.2.host.head? ≠ some .reset ∧ x.1.sda ≠ x.1.scl := by
    revert x
    decide
  obtain ⟨hi, hd, hb⟩ := inv_of_check key.1
  obtain ⟨t, h, c⟩ := step_passes key.2.1
  simp only [Bool.and_eq_true, Bool.not_eq_true', beq_iff_eq] at c
  exact ⟨t, hi, hb, hd, h, key.2.2.1, c.1, c.2, key.2.2.2⟩

/-- The first and the last data clock. -/
theorem witness_WriteSendsMostSignificantBitFirst :
    (∃ s : State, s.Inv ∧ runsAt (.write 4 5 0xA5) (7 * 0 + 1) s) ∧
    (∃ s : State, s.Inv ∧ runsAt (.write 4 5 0xA5) (7 * 7 + 1) s) :=
  ⟨⟨inFlightAt (.write 4 5 0xA5) 1 .drivenLow .drivenLow 0xA5 .unbounded [],
      (inv_of_check (i := .write 4 5 0xA5) (by decide)).1, rfl, rfl, rfl⟩,
    ⟨inFlightAt (.write 4 5 0xA5) 50 .drivenLow .drivenLow 0x80 .unbounded [],
      (inv_of_check (i := .write 4 5 0xA5) (by decide)).1, rfl, rfl, rfl⟩⟩

/-- A change under a low SCL, and the four exceptions. -/
def sdaChanges : List (Instr × State) :=
  [(.write 4 5 0xA5, inFlightAt (.write 4 5 0xA5) 8 .released .drivenLow 0x4A .unbounded []),
   (.init 4 5, inFlightAt (.init 4 5) 0 .drivenLow .released 0 .unbounded []),
   (.start 4 5, inFlightAt (.start 4 5) 0 .drivenLow .released 0 .unbounded []),
   (.start 4 5, inFlightAt (.start 4 5) 4 .released .released 0 .unbounded []),
   (.stop 4 5, inFlightAt (.stop 4 5) 6 .drivenLow .released 0 .unbounded [])]

theorem witness_SdaChangesOnlyWhileSclLow :
    ∀ x ∈ sdaChanges, ∃ t : State, x.2.Inv ∧ x.2.status.busy = true ∧ decode x.2.cur = .ok x.1 ∧
      x.1.sda ≠ x.1.scl ∧ step x.2 = .next t ∧ x.2.host.head? ≠ some .reset ∧
      t.mode x.1.sda ≠ x.2.mode x.1.sda := by
  intro x hx
  have key : inFlightCheck x.1 x.2 = true ∧
      (afterStep x.2).any (fun t => t.mode x.1.sda != x.2.mode x.1.sda) = true ∧
      x.2.host.head? ≠ some .reset ∧ x.1.sda ≠ x.1.scl := by
    revert x
    decide
  obtain ⟨hi, hd, hb⟩ := inv_of_check key.1
  obtain ⟨t, h, c⟩ := step_passes key.2.1
  exact ⟨t, hi, hb, hd, key.2.2.2, h, key.2.2.1, by simpa using c⟩

theorem witness_StartConditionExactly :
    ∃ s t : State, s.Inv ∧ runsAt (.start 4 5) 4 s ∧ exec (.start 4 5) s = .next t ∧
      levelsOf s.pinMode 4 5 (fun _ => false) = (.high, .high) := by
  obtain ⟨t, h, -⟩ := exec_passes (c := fun _ => true) (i := .start 4 5)
    (s := inFlightAt (.start 4 5) 4 .released .released 0 .unbounded []) (by decide)
  exact ⟨_, t, (inv_of_check (i := .start 4 5) (by decide)).1, ⟨rfl, rfl, rfl⟩, h, by decide⟩

theorem witness_StopConditionExactly :
    ∃ s t : State, s.Inv ∧ runsAt (.stop 4 5) 6 s ∧ exec (.stop 4 5) s = .next t ∧
      (levelsOf s.pinMode 4 5 (fun _ => false)).2 = .high := by
  obtain ⟨t, h, -⟩ := exec_passes (c := fun _ => true) (i := .stop 4 5)
    (s := inFlightAt (.stop 4 5) 6 .drivenLow .released 0 .unbounded []) (by decide)
  exact ⟨_, t, (inv_of_check (i := .stop 4 5) (by decide)).1, ⟨rfl, rfl, rfl⟩, h, by decide⟩

theorem witness_TransfersMakeNoCondition :
    (∃ s t : State, s.Inv ∧ runs (.write 4 5 0xA5) .putbit s ∧ exec (.write 4 5 0xA5) s = .next t) ∧
    (∃ s t : State, s.Inv ∧ runs (.read 4 5 true) (.rel .sda) s ∧
      exec (.read 4 5 true) s = .next t) := by
  constructor
  · obtain ⟨t, h, -⟩ := exec_passes (c := fun _ => true) (i := .write 4 5 0xA5)
      (s := inFlightAt (.write 4 5 0xA5) 8 .released .drivenLow 0x4A .unbounded []) (by decide)
    exact ⟨_, t, (inv_of_check (i := .write 4 5 0xA5) (by decide)).1, ⟨rfl, rfl, rfl⟩, h⟩
  · obtain ⟨t, h, -⟩ := exec_passes (c := fun _ => true) (i := .read 4 5 true)
      (s := inFlightAt (.read 4 5 true) 1 .drivenLow .drivenLow 0 .unbounded []) (by decide)
    exact ⟨_, t, (inv_of_check (i := .read 4 5 true) (by decide)).1, ⟨rfl, rfl, rfl⟩, h⟩

theorem witness_InitMakesNoStart :
    (∃ s t : State, runs (.init 4 5) (.rel .sda) s ∧ exec (.init 4 5) s = .next t ∧ s.upc = 0 ∧
      s.mode 4 = .drivenLow ∧ s.mode 5 = .drivenLow) ∧
    (∃ s t : State, runs (.init 4 5) (.rel .scl) s ∧ exec (.init 4 5) s = .next t ∧ s.upc = 1 ∧
      s.mode 4 = .released ∧ s.mode 5 = .drivenLow) := by
  constructor
  · obtain ⟨t, h, -⟩ := exec_passes (c := fun _ => true) (i := .init 4 5)
      (s := running (.init 4 5) 0 .drivenLow .drivenLow) (by decide)
    exact ⟨_, t, ⟨rfl, rfl, rfl⟩, h, rfl, by decide, by decide⟩
  · obtain ⟨t, h, -⟩ := exec_passes (c := fun _ => true) (i := .init 4 5)
      (s := running (.init 4 5) 1 .released .drivenLow) (by decide)
    exact ⟨_, t, ⟨rfl, rfl, rfl⟩, h, rfl, by decide, by decide⟩

/-- The START and the STOP of the two commands, and the release of R137. -/
def conditionSteps : List (Instr × State) :=
  [(.start 4 5, inFlightAt (.start 4 5) 4 .released .released 0 .unbounded []),
   (.stop 4 5, inFlightAt (.stop 4 5) 6 .drivenLow .released 0 .unbounded []),
   (.start 4 5, inFlightAt (.start 4 5) 0 .drivenLow .released 0 .unbounded [])]

theorem witness_OnlyTheseStepsMakeConditions :
    ∀ x ∈ conditionSteps, ∃ (op : MicroOp) (t : State), x.2.Inv ∧ x.1.sda ≠ x.1.scl ∧
      x.2.mode x.1.sda ≠ .unknown ∧ x.2.mode x.1.scl ≠ .unknown ∧ runs x.1 op x.2 ∧
      exec x.1 x.2 = .next t ∧
      (isStartCondition (levelsOf x.2.pinMode 4 5 fun _ => false)
          (levelsOf t.pinMode 4 5 fun _ => false) = true ∨
        isStopCondition (levelsOf x.2.pinMode 4 5 fun _ => false)
          (levelsOf t.pinMode 4 5 fun _ => false) = true) := by
  intro x hx
  have key : inFlightCheck x.1 x.2 = true ∧
      (after x.1 x.2).any (fun t =>
        isStartCondition (levelsOf x.2.pinMode 4 5 fun _ => false)
          (levelsOf t.pinMode 4 5 fun _ => false) ||
        isStopCondition (levelsOf x.2.pinMode 4 5 fun _ => false)
          (levelsOf t.pinMode 4 5 fun _ => false)) = true ∧
      x.1.sda ≠ x.1.scl ∧ x.2.mode x.1.sda ≠ .unknown ∧ x.2.mode x.1.scl ≠ .unknown ∧
      x.2.cur = encode x.1 ∧ ((sequenceOf x.1)[x.2.upc.toNat]?).isSome = true := by
    revert x
    decide
  obtain ⟨k1, k2, k3, k4, k5, k6, k7⟩ := key
  obtain ⟨hi, -, hb⟩ := inv_of_check k1
  obtain ⟨t, h, c⟩ := exec_passes k2
  obtain ⟨op, ho⟩ := Option.isSome_iff_exists.mp k7
  exact ⟨op, t, hi, k3, k4, k5, ⟨hb, k6, ho⟩, h, by simpa using c⟩

theorem witness_PseudoCommandExpansions :
    ∃ (h : HandleOperand) (v : Byte) (addr : Nat), handleValue h = .ok v ∧ addr ≤ 127 ∧ addr = 127 :=
  ⟨.pins 15 0, 0xF0, 127, rfl, by decide, rfl⟩

theorem witness_AssemblerRefusesLargeOperands :
    (∃ (l : AsmLine) (p q : Nat), lineHandle l = .pins p q ∧ (15 < p ∨ 15 < q) ∧ p = 16 ∧ q = 5) ∧
    (∃ (h : HandleOperand) (v : Byte) (addr : Nat), handleValue h = .ok v ∧ 127 < addr ∧
      addr = 128) :=
  ⟨⟨.init (.pins 16 5), 16, 5, rfl, by decide, rfl, rfl⟩, ⟨.literal 0x45, 0x45, 128, rfl, by decide, rfl⟩⟩

theorem witness_AssembledWordsAreLegal :
    ∃ (l : AsmLine) (ws : List Word), assembleLine l = .ok ws ∧ ws.length = 2 :=
  ⟨.beginTx (.pins 4 5) 0x50, [0x452000, 0x4540A0], rfl, rfl⟩

/-- An acceptance of a WRITE, a PUTBIT, a SHIFT, the first and the last of each, any step, and another
command's step. -/
theorem witness_ShregBelongsToWrite :
    (∃ (s t : State) (w : Word) (rest : List HostAction), s.host = .writeCmd w :: rest ∧
      step s = .next t ∧ legalWord w = true ∧ opField w = 4) ∧
    (∃ s : State, runs (.write 4 5 0xA5) .putbit s) ∧
    (∃ s : State, runs (.write 4 5 0xA5) .shift s) ∧
    (∀ n ∈ [1, 50], (sequenceOf (.write 4 5 0xA5))[n]? = some .putbit) ∧
    (∀ n ∈ [6, 55], (sequenceOf (.write 4 5 0xA5))[n]? = some .shift) ∧
    (∃ s t : State, step s = .next t ∧ s.host.head? ≠ some .reset ∧ t.shreg ≠ s.shreg) ∧
    (∃ (i : Instr) (s t : State), i.opcode ≠ 4 ∧ exec i s = .next t) := by
  refine ⟨?_, ⟨running (.write 4 5 0xA5) 1 .drivenLow .drivenLow, rfl, rfl, rfl⟩,
    ⟨running (.write 4 5 0xA5) 6 .released .released, rfl, rfl, rfl⟩, by decide, by decide, ?_, ?_⟩
  · obtain ⟨t, h, -⟩ := step_passes (c := fun _ => true)
      (s := { State.reset with host := [.writeCmd 0x4540A5] }) (by decide)
    exact ⟨_, t, 0x4540A5, [], rfl, h, by decide, by decide⟩
  · obtain ⟨t, h, c⟩ := step_passes (c := fun t => t.shreg == 0x4A)
      (s := { running (.write 4 5 0xA5) 6 .released .released with shreg := 0xA5 }) (by decide)
    simp only [beq_iff_eq] at c
    exact ⟨_, t, h, by decide, by rw [c]; decide⟩
  · obtain ⟨t, h, -⟩ := exec_passes (c := fun _ => true) (i := .start 4 5)
      (s := running (.start 4 5) 3 .released .released) (by decide)
    exact ⟨.start 4 5, _, t, by decide, h⟩

/-- A micro-operation that makes a call, and the one that makes none. -/
theorem witness_PlatformCallsOfMicroOperations :
    ∀ n ∈ [(1 : BitVec 7), 6], ∃ (op : MicroOp) (t : State),
      runs (.write 4 5 0xA5) op (running (.write 4 5 0xA5) n .drivenLow .drivenLow) ∧
      exec (.write 4 5 0xA5) (running (.write 4 5 0xA5) n .drivenLow .drivenLow) = .next t := by
  intro n hn
  have key : ((sequenceOf (.write 4 5 0xA5))[n.toNat]?).isSome = true := by
    revert n
    decide
  obtain ⟨op, ho⟩ := Option.isSome_iff_exists.mp key
  have hr : runs (.write 4 5 0xA5) op (running (.write 4 5 0xA5) n .drivenLow .drivenLow) :=
    ⟨rfl, rfl, ho⟩
  obtain ⟨t, h⟩ := exec_runs_next hr
  exact ⟨op, t, hr, h⟩

end Sys2Proof.Tests
end

section
/-! Which step writes what: a non-reset step sorted by BUSY, the line a command's read is on, the
step of a micro-operation that is not the last, and a command's step seen with another SHREG. -/

namespace Sys2Proof.Machine

/-! ### A step by BUSY -/

/-- The word of a command is the only one that decodes to it (30_encoding R81). -/
theorem eq_encode_of_decode {w : Word} {i : Instr} (h : decode w = .ok i) : w = encode i := by
  obtain ⟨hr, hsda, hscl, hop, ha, hd⟩ := decode_fields h
  rw [← commandWord_fields w hr, hsda, hscl, hop, ha, hd, encode_eq]

/-- A word that decodes is legal (30_encoding R77). -/
theorem legalWord_of_decode {w : Word} {i : Instr} (h : decode w = .ok i) : legalWord w = true := by
  obtain ⟨hr, -, -, hop, ha, hd⟩ := decode_fields h
  rw [legalWord, hr, hop, ha, hd]
  exact i.wellFormed_all

/-- A legal word with the opcode of WRITE decodes to a WRITE of its byte. -/
theorem decode_of_legal_write {w : Word} (hl : legalWord w = true) (ho : opField w = 4) :
    decode w = .ok (.write (sdaField w) (sclField w) (dataField w)) := by
  simp only [legalWord, fieldsLegal, rsvClear, ackAllowed, ho, Bool.and_eq_true, beq_iff_eq] at hl
  obtain ⟨⟨⟨-, hr⟩, ha⟩, -⟩ := hl
  have ha : ackField w = false := by simpa using ha
  simp [decode, hr, ho, decodeWrite, ha]

/-- A read of STATUS is the same step whatever BUSY is (10_state R45). -/
theorem step_readStatus {s : State} (hh : s.host.head? = some .readStatus) :
    step s = .next (readStatus (dropAction s)) := by
  obtain ⟨rest, hh⟩ := List.head?_eq_some_iff.mp hh
  simp [step, turn, hh]

/-- With BUSY = 1 a step other than a reset or a read of STATUS is the micro-operation at UPC of the
command in CUR; which of the host's actions are then left makes no difference to it. -/
theorem step_busy {s t : State} (h : step s = .next t) (hb : s.status.busy = true)
    (hr : s.host.head? ≠ some .reset) (hs : s.host.head? ≠ some .readStatus) :
    ∃ i op l, decode s.cur = .ok i ∧ runs i op s ∧ exec i { s with host := l } = .next t := by
  rcases step_next h with ⟨w, -, hf, -⟩ | ⟨hh, -⟩ | ⟨hh, -⟩ | ⟨-, hf, -⟩ | ⟨u, hu, hturn⟩
  · exact absurd (hb.symm.trans hf) (by decide)
  · exact absurd (by rw [hh]; rfl) hs
  · exact absurd (by rw [hh]; rfl) hr
  · exact absurd (hb.symm.trans hf) (by decide)
  · have hl : ∃ l, u = { s with host := l } := by
      obtain ⟨rfl, -⟩ | ⟨rfl, -⟩ := hu
      · exact ⟨u.host, rfl⟩
      · exact ⟨s.host.tail, rfl⟩
    obtain ⟨l, rfl⟩ := hl
    obtain ⟨hf, -⟩ | ⟨-, i, hd, he⟩ := hturn
    · exact absurd (hb.symm.trans hf) (by decide)
    · obtain ⟨hf, -⟩ | ⟨op, hrun, -⟩ := exec_next he
      · exact absurd (hb.symm.trans hf) (by decide)
      · exact ⟨i, op, l, hd, hrun, he⟩

/-- With BUSY = 0 a step other than a reset accepts a command, refuses a word, reads STATUS, or changes
nothing but the host's actions. -/
theorem step_idle {s t : State} (h : step s = .next t) (hb : s.status.busy = false)
    (hr : s.host.head? ≠ some .reset) :
    (∃ w i, s.host = .writeCmd w :: s.host.tail ∧ decode w = .ok i ∧
      t = accept (encode i) (loadOf i (dropAction s))) ∨
    (∃ w, t = raiseIllegal w (dropAction s)) ∨ t = readStatus (dropAction s) ∨
    t = dropAction s ∨ t = s := by
  rcases step_next h with ⟨w, hh, -, hw⟩ | ⟨-, rfl⟩ | ⟨hh, -⟩ | ⟨-, -, rfl⟩ | ⟨u, hu, hturn⟩
  · obtain ⟨e, -, rfl⟩ | ⟨i, hd, he⟩ := hw
    · exact .inr (.inl ⟨w, rfl⟩)
    · have hi : (dropAction s).status.busy = false := hb
      rw [exec_idle hi] at he
      injection he with he
      exact .inl ⟨w, i, hh, hd, he.symm⟩
  · exact .inr (.inr (.inl rfl))
  · exact absurd (by rw [hh]; rfl) hr
  · exact .inr (.inr (.inr (.inl rfl)))
  · obtain ⟨-, rfl⟩ | ⟨ht, -⟩ := hturn
    · obtain ⟨rfl, -⟩ | ⟨rfl, -⟩ := hu
      · exact .inr (.inr (.inr (.inr rfl)))
      · exact .inr (.inr (.inr (.inl rfl)))
    · exact absurd (hb.symm.trans ht) (by decide)

/-- An acceptance writes no pin. -/
@[simp] theorem loadOf_pinMode (i : Instr) (s : State) : (loadOf i s).pinMode = s.pinMode :=
  (loadOf_frame i s).1

/-! ### One micro-operation of the command in flight -/

/-- The level a command's line read returns is that of its own pin. -/
theorem lineRead_of_cur {i : Instr} {s : State} (hc : s.cur = encode i) (l : Line) :
    lineRead l s = readLevel (pinOf i l) s := by
  simp [lineRead, hc]

/-- A command's line read spends a draw for its own pin and records the sample there. -/
theorem afterLineRead_of_cur {i : Instr} {s : State} (hc : s.cur = encode i) (l : Line) :
    afterLineRead l s =
      (spendForRead (pinOf i l) s).record (.sample (pinOf i l) (readLevel (pinOf i l) s)) := by
  simp [afterLineRead, lineRead, hc]

/-- A finished micro-operation that writes no line by name is not the last: UPC moves on. -/
theorem exec_moves {i : Instr} {op : MicroOp} {s u : State} (hr : runs i op s)
    (hw : isLineWrite op = false) (hd : execMicro op s = .done u) :
    exec i s = .next { u with upc := s.upc + 1 } := by
  have hu : u.upc = s.upc := by simpa [hd] using (execMicro_frame op s).2.1
  have hm : u.upc.toNat + 1 < (sequenceOf i).length := hu ▸ more_of_not_lineWrite hr hw
  rw [exec_runs hr, hd]
  simp only [advance_more hm, hu]

/-! ### SHREG -/

/-- A SHIFT doubles SHREG and keeps 8 bits (40_line_driver R112). -/
theorem shiftLeft_eq_double (v : Byte) : shiftLeft v = BitVec.ofNat 8 (2 * v.toNat) := by
  apply BitVec.eq_of_toNat_eq
  simp [shiftLeft, BitVec.toNat_shiftLeft, Nat.shiftLeft_eq, Nat.mul_comm]

/-- Only a WRITE has opcode 4. -/
theorem eq_write_of_opcode {i : Instr} (h : i.opcode = 4) :
    i = .write i.sda i.scl i.dataByte := by
  cases i with
  | write sda scl d => rfl
  | init sda scl => simp [Instr.opcode] at h
  | start sda scl => simp [Instr.opcode] at h
  | stop sda scl => simp [Instr.opcode] at h
  | read sda scl a => simp [Instr.opcode] at h

/-- The acceptance of a command that is no WRITE neither reads nor writes SHREG. -/
theorem loadOf_withShreg {i : Instr} (h : i.opcode ≠ 4) (s : State) (v : Byte) :
    loadOf i { s with shreg := v } = { loadOf i s with shreg := v } := by
  cases i with
  | write sda scl d => exact absurd rfl h
  | init sda scl => rfl
  | start sda scl => rfl
  | stop sda scl => rfl
  | read sda scl a => rfl

theorem loadOf_shreg {i : Instr} (h : i.opcode ≠ 4) (s : State) :
    (loadOf i s).shreg = s.shreg := by
  have same := congrArg State.shreg (loadOf_withShreg h s s.shreg)
  exact same

/-- The same end of a micro-operation, with another SHREG. -/
def MicroResult.withShreg (v : Byte) : MicroResult → MicroResult
  | .done s => .done { s with shreg := v }
  | .hold s => .hold { s with shreg := v }
  | .limit s => .limit { s with shreg := v }

theorem spendForRead_withShreg (p : Pin) (s : State) (v : Byte) :
    spendForRead p { s with shreg := v } = { spendForRead p s with shreg := v } := by
  have hm : State.mode { s with shreg := v } p = s.mode p := rfl
  unfold spendForRead
  rw [hm]
  cases s.mode p <;> rfl

/-- A line read does not look at SHREG. -/
theorem afterLineRead_withShreg (l : Line) (s : State) (v : Byte) :
    afterLineRead l { s with shreg := v } = { afterLineRead l s with shreg := v } :=
  congrArg (State.record · _) (spendForRead_withShreg (linePin s.cur l) s v)

/-- A poll does not look at SHREG. -/
theorem pollResult_withShreg (x : Level) (s : State) (v : Byte) :
    pollResult x { s with shreg := v } = (pollResult x s).withShreg v := by
  cases x with
  | high => rfl
  | low =>
    simp only [pollResult]
    split <;> rfl

/-- Only PUTBIT reads SHREG, and only SHIFT reads and writes it (40_line_driver R111, R112). -/
theorem execMicro_withShreg {op : MicroOp} (hp : op ≠ .putbit) (hs : op ≠ .shift) (s : State)
    (v : Byte) : execMicro op { s with shreg := v } = (execMicro op s).withShreg v := by
  cases op with
  | putbit => exact absurd rfl hp
  | shift => exact absurd rfl hs
  | await l =>
    simp only [execMicro, microAwait, afterLineRead_withShreg, pollResult_withShreg]
    rfl
  | sampleAck =>
    simp only [execMicro, microSampleAck, afterLineRead_withShreg]
    rfl
  | sampleBit =>
    simp only [execMicro, microSampleBit, afterLineRead_withShreg]
    rfl
  | rel l => rfl
  | drv l => rfl
  | wait => rfl
  | putack => rfl

/-- Neither UPC's advance nor a completion looks at SHREG. -/
theorem advance_withShreg (i : Instr) (s : State) (v : Byte) :
    advance (sequenceOf i).length (finishOf i) { s with shreg := v } =
      { advance (sequenceOf i).length (finishOf i) s with shreg := v } := by
  unfold advance
  split
  · cases i <;> rfl
  · rfl

/-- A step of a command that is no WRITE is the same whatever SHREG holds, and leaves it. -/
theorem exec_withShreg {i : Instr} {s t : State} (hi : i.opcode ≠ 4) (h : exec i s = .next t)
    (v : Byte) : exec i { s with shreg := v } = .next { t with shreg := v } := by
  obtain ⟨hb, rfl⟩ | ⟨op, hr, -⟩ := exec_next h
  · rw [exec_idle (s := { s with shreg := v }) hb, loadOf_withShreg hi]
    rfl
  · have hop : op ≠ .putbit ∧ op ≠ .shift :=
      ⟨fun e => hi ((only_in hr.2.2).1 (.inl e)), fun e => hi ((only_in hr.2.2).1 (.inr (.inl e)))⟩
    have hr' : runs i op { s with shreg := v } := hr
    rw [exec_runs hr] at h
    rw [exec_runs hr', execMicro_withShreg hop.1 hop.2]
    cases hx : execMicro op s with
    | done u =>
      rw [hx] at h
      injection h with h
      rw [← h, ← advance_withShreg]
      rfl
    | hold u => rw [hx] at h; injection h with h; rw [← h]; rfl
    | limit u => rw [hx] at h; injection h with h; rw [← h]; rfl

/-- The PUTBITs and SHIFTs of a WRITE: second and last of each of its eight data clocks
(42_byte_transfer R161). -/
theorem writeSequence_putbit_shift (n : Nat) :
    (writeSequence[n]? = some .putbit ↔ ∃ k, k < 8 ∧ n = 7 * k + 1) ∧
    (writeSequence[n]? = some .shift ↔ ∃ k, k < 8 ∧ n = 7 * k + 6) := by
  have key : everyEntry writeSequence (fun n op =>
      (op != .putbit || decide (n / 7 < 8 ∧ n = 7 * (n / 7) + 1)) &&
      (op != .shift || decide (n / 7 < 8 ∧ n = 7 * (n / 7) + 6))) = true := by
    decide
  have slots : ∀ k < 8, writeSequence[7 * k + 1]? = some .putbit ∧
      writeSequence[7 * k + 6]? = some .shift := by
    decide
  refine ⟨⟨fun h => ⟨n / 7, ?_⟩, ?_⟩, ⟨fun h => ⟨n / 7, ?_⟩, ?_⟩⟩
  · simpa using everyEntry_get key h
  · rintro ⟨k, hk, rfl⟩
    exact (slots k hk).1
  · simpa using everyEntry_get key h
  · rintro ⟨k, hk, rfl⟩
    exact (slots k hk).2

/-- A WRITE that is accepted loads SHREG with its byte, which is CUR[7:0] then. -/
theorem shreg_loaded_by_write {s t : State} {w : Word} {rest : List HostAction}
    (hh : s.host = .writeCmd w :: rest) (h : step s = .next t) (hl : legalWord w = true)
    (ho : opField w = 4) : t.shreg = dataField w ∧ t.shreg = dataField t.cur := by
  have hd := decode_of_legal_write hl ho
  cases hb : s.status.busy with
  | true => simp [step, turn, hh, writeCmd, hb] at h
  | false =>
    have hi : (dropAction s).status.busy = false := hb
    have ht : step s = exec (.write (sdaField w) (sclField w) (dataField w)) (dropAction s) := by
      simp [step, turn, hh, writeCmd, hb, hd]
    rw [ht, exec_idle hi, ← eq_encode_of_decode hd] at h
    injection h with h
    rw [← h]
    exact ⟨rfl, rfl⟩

/-- A step other than a reset changes SHREG only by accepting a WRITE or by a SHIFT of one. -/
theorem shreg_writers {s t : State} (h : step s = .next t) (hr : s.host.head? ≠ some .reset) :
    t.shreg = s.shreg ∨
    (∃ w rest, s.host = .writeCmd w :: rest ∧ legalWord w = true ∧ opField w = 4) ∨
    (s.status.busy = true ∧ ∃ sda scl d, decode s.cur = .ok (.write sda scl d) ∧
      (sequenceOf (.write sda scl d))[s.upc.toNat]? = some .shift ∧
      t.shreg = BitVec.ofNat 8 (2 * s.shreg.toNat)) := by
  cases hb : s.status.busy with
  | false =>
    rcases step_idle h hb hr with ⟨w, i, hh, hd, rfl⟩ | ⟨w, rfl⟩ | rfl | rfl | rfl
    · by_cases hi : i.opcode = 4
      · obtain ⟨-, -, -, hop, -⟩ := decode_fields hd
        exact .inr (.inl ⟨w, s.host.tail, hh, legalWord_of_decode hd, hop.trans hi⟩)
      · exact .inl (loadOf_shreg hi (dropAction s))
    · exact .inl rfl
    · exact .inl rfl
    · exact .inl rfl
    · exact .inl rfl
  | true =>
    by_cases hs : s.host.head? = some .readStatus
    · rw [step_readStatus hs] at h
      injection h with h
      exact .inl (by rw [← h]; rfl)
    · obtain ⟨i, op, l, hd, hrun, he⟩ := step_busy h hb hr hs
      have hv := exec_shreg (s := { s with host := l }) hrun he
      by_cases hop : op = .shift
      · subst hop
        have hi := eq_write_of_opcode ((only_in hrun.2.2).1 (.inr (.inl rfl)))
        rw [if_pos rfl, shiftLeft_eq_double] at hv
        exact .inr (.inr ⟨rfl, i.sda, i.scl, i.dataByte, hi ▸ hd, hi ▸ hrun.2.2, hv⟩)
      · exact .inl (hv.trans (if_neg hop))

end Sys2Proof.Machine
end

section
/-! The statements of 10_state.md about ACKS, the pins' modes and SHREG. -/

namespace Sys2Proof.Proofs

open Sys2Proof Sys2Proof.Machine

/-- Settles O43: a step with BUSY = 1 is one micro-operation of the command in CUR, and a step with
BUSY = 0 or a read of STATUS writes no pin. -/
theorem pinModesPersist : Obligations.PinModesPersist := by
  intro s t p h hr
  refine ⟨fun hb hs => ?_, fun hk => mode_congr ?_ p⟩
  · obtain ⟨i, op, l, hd, hrun, he⟩ := step_busy h hb hr hs
    exact ⟨i, op, hd, hrun.2.2, exec_mode (s := { s with host := l }) hrun he p⟩
  · obtain hb | hs := hk
    · rcases step_idle h hb hr with ⟨w, i, -, -, rfl⟩ | ⟨w, rfl⟩ | rfl | rfl | rfl
      · simp
      · rfl
      · rfl
      · rfl
      · rfl
    · rw [step_readStatus hs] at h
      injection h with h
      rw [← h]
      rfl

/-- Settles O44: SHREG is written at the acceptance of a WRITE and by its SHIFTs, and read by its
PUTBITs and SHIFTs. -/
theorem shregBelongsToWrite : Obligations.ShregBelongsToWrite := by
  refine ⟨fun s t w rest hh h hl ho => shreg_loaded_by_write hh h hl ho,
    fun sda scl d s hr => ?_, fun sda scl d s hr => ?_,
    fun sda scl d n => writeSequence_putbit_shift n,
    fun s t h hr => shreg_writers h hr, fun i s t v hi h => exec_withShreg hi h v⟩
  · obtain ⟨t, ht⟩ := exec_runs_next hr
    exact ⟨t, ht, (exec_mode hr ht sda).trans (if_pos rfl)⟩
  · obtain ⟨t, ht⟩ := exec_runs_next hr
    exact ⟨t, ht, (exec_shreg hr ht).trans (shiftLeft_eq_double s.shreg)⟩

/-- Settles O24: from the acceptance's frame, and from the sample's spent draw and recorded level. -/
theorem acksOfAcceptanceAndSample : Obligations.AcksOfAcceptanceAndSample := by
  refine ⟨fun i s hb => ⟨_, exec_idle hb, rfl, rfl⟩, fun sda scl d s hr => ?_⟩
  rw [exec_moves hr rfl rfl, microSampleAck, lineRead_of_cur hr.2.1, afterLineRead_of_cur hr.2.1]
  simp only [pinOf, Instr.sda, State.record, spendForRead_events]
  cases readLevel sda s <;> rfl

end Sys2Proof.Proofs
end

section
/-! A poll that reads low below the limit, and a run of a host that only watches such polls
(40_line_driver R107). -/

namespace Sys2Proof.Machine

/-! ### The command in flight and its poll -/

/-- The word of a command decodes to it (30_encoding R76). -/
@[simp] theorem decode_encode (i : Instr) : decode (encode i) = .ok i := by
  cases i <;>
    simp [decode, decodeBare, decodeWrite, decodeRead, Instr.sda, Instr.scl, Instr.opcode,
      Instr.ackBit, Instr.dataByte]

/-- In a state of the invariant the AWAIT of the command in flight finds SCL Released
(40_line_driver R104). -/
theorem released_of_await {i : Instr} {s : State} (hi : s.Inv) (hr : runs i (.await .scl) s) :
    s.mode i.scl = .released := by
  obtain ⟨hb, hc, ho⟩ := hr
  obtain ⟨i', hd, hf⟩ := hi.inFlight hb
  rw [hc, decode_encode] at hd
  cases hd
  exact hf.awaitReleased ho

/-- A poll that reads SCL low and does not reach the limit counts itself, spends one answer, records
the sample, and leaves all else as it was (40_line_driver R106). -/
theorem exec_await_low {i : Instr} {s : State} {ds : List Bool} (hr : runs i (.await .scl) s)
    (hm : s.mode i.scl = .released) (hd : s.draws = true :: ds)
    (hl : limitReached s.stretchLimit (s.polls + 1) = false) :
    exec i s = .next { s with
      polls := s.polls + 1, draws := ds, events := s.events ++ [.sample i.scl .low] } := by
  have hlow : readLevel i.scl s = .low := by simp [readLevel, hm, levelOf, nextDraw, hd]
  have hread : afterLineRead .scl s =
      { s with draws := ds, events := s.events ++ [.sample i.scl .low] } := by
    rw [afterLineRead_of_cur hr.2.1]
    simp [pinOf, hlow, spendForRead_released hm, spendDraw, State.record, hd]
  rw [exec_runs hr, execMicro, microAwait, lineRead_of_cur hr.2.1, hread]
  simp [pinOf, hlow, pollResult, hl]

/-- A CMD write while a command executes is refused (10_state R44). -/
theorem step_writeCmd_busy {s : State} {w : Word} {rest : List HostAction}
    (hh : s.host = .writeCmd w :: rest) (hb : s.status.busy = true) :
    step s = .refused .cmdWhileBusy := by
  simp [step, turn, hh, writeCmd, hb]

/-! ### The turns of a host that only watches -/

/-- A host that only watches leaves the turn to the sequencer, passes, or reads STATUS. -/
theorem onlyWatches_cases {l : List HostAction} (h : onlyWatches l = true) :
    leavesTurns l = true ∨
    ∃ rest, onlyWatches rest = true ∧ (l = .pass :: rest ∨ l = .readStatus :: rest) := by
  cases l with
  | nil => exact .inl rfl
  | cons a rest =>
    cases a with
    | waitIdle => exact .inl rfl
    | pass => exact .inr ⟨rest, by simpa [onlyWatches, beforeWait] using h, .inl rfl⟩
    | readStatus => exact .inr ⟨rest, by simpa [onlyWatches, beforeWait] using h, .inr rfl⟩
    | writeCmd w => simp [onlyWatches, beforeWait] at h
    | reset => simp [onlyWatches, beforeWait] at h

/-- The step of a command in flight while the host leaves the turns to the sequencer. -/
theorem step_of_leavesTurns {i : Instr} {op : MicroOp} {s : State} (hr : runs i op s)
    (hh : leavesTurns s.host = true) : step s = exec i s := by
  have hseq : sequencerTurn s = exec i s :=
    sequencerTurn_busy hr.1 (by rw [hr.2.1, decode_encode])
  unfold step turn
  cases h : s.host with
  | nil => exact hseq
  | cons a rest =>
    cases a with
    | waitIdle => simpa [waitTurn, hr.1] using hseq
    | pass => simp [h, leavesTurns] at hh
    | readStatus => simp [h, leavesTurns] at hh
    | writeCmd w => simp [h, leavesTurns] at hh
    | reset => simp [h, leavesTurns] at hh

/-- The step of a command in flight in a turn the host passes. -/
theorem step_of_pass {i : Instr} {op : MicroOp} {s : State} {rest : List HostAction}
    (hr : runs i op s) (hh : s.host = .pass :: rest) : step s = exec i (dropAction s) := by
  have hseq : sequencerTurn (dropAction s) = exec i (dropAction s) :=
    sequencerTurn_busy hr.1 (by rw [dropAction_cur, hr.2.1, decode_encode])
  simpa [step, turn, hh] using hseq

/-! ### The AWAIT that holds for ever -/

/-- The command `i` is at an AWAIT on a Released SCL, with the limit NONE (40_line_driver R107). -/
structure AwaitsUnbounded (i : Instr) (s : State) : Prop where
  awaits : runs i (.await .scl) s
  released : s.mode i.scl = .released
  unbounded : s.stretchLimit = .unbounded

/-- The state after j low polls and r reads of STATUS, with m of the host's actions taken and the
answers `ds` to come. -/
def afterWatching (i : Instr) (s : State) (j r m : Nat) (ds : List Bool) : State :=
  { s with
    polls := s.polls + j, draws := ds, host := s.host.drop m
    statusReads := s.statusReads ++ List.replicate r (statusWord s.status)
    events := s.events ++ List.replicate j (.sample i.scl .low) }

theorem afterWatching_zero (i : Instr) (s : State) : afterWatching i s 0 0 0 s.draws = s := by
  simp [afterWatching]

/-- Watching goes on from where it led: polls, reads and actions add up. -/
theorem afterWatching_add (i : Instr) (s : State) (j r m j' r' m' : Nat) (ds ds' : List Bool) :
    afterWatching i (afterWatching i s j r m ds) j' r' m' ds' =
      afterWatching i s (j' + j) (r' + r) (m' + m) ds' := by
  simp [afterWatching, Nat.add_comm, Nat.add_left_comm]

/-- Watching leaves the command at its AWAIT. -/
theorem AwaitsUnbounded.kept {i : Instr} {s : State} (h : AwaitsUnbounded i s)
    (j r m : Nat) (ds : List Bool) : AwaitsUnbounded i (afterWatching i s j r m ds) :=
  ⟨h.awaits, h.released, h.unbounded⟩

/-- A low poll in a turn the host leaves to the sequencer. -/
theorem step_poll_of_leavesTurns {i : Instr} {s : State} {ds : List Bool}
    (h : AwaitsUnbounded i s) (hh : leavesTurns s.host = true) (hd : s.draws = true :: ds) :
    step s = .next (afterWatching i s 1 0 0 ds) := by
  rw [step_of_leavesTurns h.awaits hh,
    exec_await_low h.awaits h.released hd (by rw [h.unbounded]; rfl)]
  simp [afterWatching]

/-- A low poll in a turn the host passes. -/
theorem step_poll_of_pass {i : Instr} {s : State} {ds : List Bool} {rest : List HostAction}
    (h : AwaitsUnbounded i s) (hh : s.host = .pass :: rest) (hd : s.draws = true :: ds) :
    step s = .next (afterWatching i s 1 0 1 ds) := by
  rw [step_of_pass h.awaits hh, exec_await_low (s := dropAction s) h.awaits h.released hd
    (by rw [dropAction_stretchLimit, h.unbounded]; rfl)]
  simp [afterWatching, dropAction]

/-- A read of STATUS spends no answer. -/
theorem step_read_watching (i : Instr) {s : State} {rest : List HostAction}
    (hh : s.host = .readStatus :: rest) :
    step s = .next (afterWatching i s 0 1 1 s.draws) := by
  rw [step_readStatus (by rw [hh]; rfl)]
  simp [afterWatching, readStatus, dropAction]

/-- While SCL reads low, k steps are j polls and r reads of STATUS; no more of the host's actions
are taken than stand before its first wait. -/
theorem runSteps_awaitsUnbounded {i : Instr} (k : Nat) {s : State} {ds : List Bool}
    (h : AwaitsUnbounded i s) (hw : onlyWatches s.host = true)
    (hd : s.draws = List.replicate k true ++ ds) :
    ∃ j r m, j + r = k ∧ r ≤ (beforeWait s.host).countP (· == .readStatus) ∧
      m ≤ (beforeWait s.host).length ∧
      runSteps k s = .next (afterWatching i s j r m (List.replicate r true ++ ds)) := by
  induction k generalizing s ds with
  | zero =>
    have hd : s.draws = ds := hd
    exact ⟨0, 0, 0, rfl, Nat.zero_le _, Nat.zero_le _, by simp [← hd, afterWatching_zero]⟩
  | succ k ih =>
    have hd1 : s.draws = true :: (List.replicate k true ++ ds) := by
      rw [hd, List.replicate_succ, List.cons_append]
    obtain hl | ⟨rest, hrest, hp | hp⟩ := onlyWatches_cases hw
    · obtain ⟨j, r, m, hk, hr, hm, hrun⟩ := ih (h.kept 1 0 0 _) hw rfl
      refine ⟨j + 1, r, m, by omega, hr, hm, ?_⟩
      rw [runSteps_next (step_poll_of_leavesTurns h hl hd1), hrun, afterWatching_add]
      rfl
    · have htail : (afterWatching i s 1 0 1 (List.replicate k true ++ ds)).host = rest := by
        simp [afterWatching, hp]
      obtain ⟨j, r, m, hk, hr, hm, hrun⟩ :=
        ih (h.kept 1 0 1 _) (htail.symm ▸ hrest) rfl
      rw [htail] at hr hm
      refine ⟨j + 1, r, m + 1, by omega, by simpa [hp, beforeWait] using hr,
        by simpa [hp, beforeWait] using hm, ?_⟩
      rw [runSteps_next (step_poll_of_pass h hp hd1), hrun, afterWatching_add]
      rfl
    · have htail : (afterWatching i s 0 1 1 s.draws).host = rest := by
        simp [afterWatching, hp]
      obtain ⟨j, r, m, hk, hr, hm, hrun⟩ :=
        ih (ds := true :: ds) (h.kept 0 1 1 s.draws) (htail.symm ▸ hrest)
          (by simp [afterWatching, hd, List.replicate_succ'])
      rw [htail] at hr hm
      refine ⟨j, r + 1, m + 1, by omega, by simpa [hp, beforeWait] using hr,
        by simpa [hp, beforeWait] using hm, ?_⟩
      rw [runSteps_next (step_read_watching i hp), hrun, afterWatching_add, List.replicate_succ',
        List.append_assoc]
      rfl

end Sys2Proof.Machine
end

section
/-! The statements of 40_line_driver.md. -/

namespace Sys2Proof.Proofs

open Sys2Proof Sys2Proof.Machine

/-- Settles O38: each step is a low poll or a read of STATUS and leaves the command at its AWAIT, by
induction on the number of steps. -/
theorem unboundedAwaitHangs : Obligations.UnboundedAwaitHangs := by
  intro k i s ds hinv hw hr hu hd
  obtain ⟨j, r, m, hk, hreads, hm, hrun⟩ :=
    runSteps_awaitsUnbounded k ⟨hr, released_of_await hinv hr, hu⟩ hw hd
  obtain rfl : r = k - j := by omega
  exact ⟨_, j, m, hrun, by omega, by omega, hm, rfl, hr.1, rfl,
    fun w rest => step_writeCmd_busy rfl hr.1⟩

end Sys2Proof.Proofs
end

section
/-! What a step of the command in flight adds to the record: the events of its micro-operation, and
after them the event that ends the command, if it ends (20_memory R65); and the platform calls of
the modes PUTBIT and PUTACK set (60_exceptions R217). -/

namespace Sys2Proof.Machine

/-! ### Events of a step -/

/-- The events a micro-operation of the command `i` records: the mode it sets, the level it reads,
or the delay (40_line_driver R101 to R115). -/
def microEvents (i : Instr) (s : State) : MicroOp → List Event
  | .rel l => [.mode (pinOf i l) .released]
  | .drv l => [.mode (pinOf i l) .drivenLow]
  | .await l => [.sample (pinOf i l) (readLevel (pinOf i l) s)]
  | .wait => [.wait]
  | .putbit => [.mode i.sda (modeOfBit (currentBit s))]
  | .shift => []
  | .sampleAck => [.sample i.sda (readLevel i.sda s)]
  | .sampleBit => [.sample i.sda (readLevel i.sda s)]
  | .putack => [.mode i.sda (modeOfAck i.ackBit)]

/-- A command's line read records the sample of its own pin. -/
theorem afterLineRead_events {i : Instr} {s : State} (hc : s.cur = encode i) (l : Line) :
    (afterLineRead l s).events =
      s.events ++ [.sample (pinOf i l) (readLevel (pinOf i l) s)] := by
  simp [afterLineRead_of_cur hc, State.record]

/-- A micro-operation of the command in CUR records its events and no others. -/
theorem execMicro_events {i : Instr} {s : State} (op : MicroOp) (hc : s.cur = encode i) :
    (execMicro op s).state.events = s.events ++ microEvents i s op := by
  cases op with
  | await l =>
    rcases microAwait_cases l s with ⟨-, h⟩ | ⟨-, -, h⟩ | ⟨-, -, h⟩ <;> rw [execMicro, h] <;>
      exact afterLineRead_events hc l
  | sampleAck => exact afterLineRead_events hc .sda
  | sampleBit => exact afterLineRead_events hc .sda
  | wait => rfl
  | shift => simp [execMicro, microShift, microEvents]
  | rel l => simp [execMicro, microRel, hc, microEvents]
  | drv l => simp [execMicro, microDrv, hc, microEvents]
  | putbit => simp [execMicro, microPutbit, hc, microEvents, pinOf]
  | putack => simp [execMicro, microPutack, hc, microEvents, pinOf]

/-- A step of the command in flight records the events of its micro-operation, then none or the one
of its completion or abort (40_line_driver R100, R106). -/
theorem exec_events {i : Instr} {op : MicroOp} {s t : State} (hr : runs i op s)
    (h : exec i s = .next t) :
    ∃ es, t.events = s.events ++ microEvents i s op ++ es ∧
      (es = [] ∨ (∃ a d, es = [.complete .ok a d]) ∨ es = [.abort .timeout]) := by
  have hm := execMicro_events op hr.2.1
  obtain ⟨-, -, hout⟩ := exec_outcome hr h
  cases hout with
  | moves _ _ _ _ _ he => exact ⟨[], by rw [he, hm, List.append_nil], .inl rfl⟩
  | completes _ _ _ _ _ _ _ he =>
    obtain ⟨a, d, he⟩ := he
    exact ⟨[.complete .ok a d], by rw [he, hm], .inr (.inl ⟨a, d, rfl⟩)⟩
  | holds ha hlow _ _ _ _ he =>
    subst ha
    exact ⟨[], by simp [he, microEvents, pinOf, hlow], .inl rfl⟩
  | timesOut ha hlow _ _ _ _ he =>
    subst ha
    exact ⟨[.abort .timeout], by simp [he, microEvents, pinOf, hlow], .inr (.inr rfl)⟩

/-! ### Platform calls -/

/-- A bit put on a line is the call that releases it for 1 and drives it low for 0 (40_line_driver
R111). -/
theorem calls_of_modeOfBit (p : Pin) (b : Bool) :
    [Event.mode p (modeOfBit b)].filterMap platformCall =
      if b then [.setPinInputPullup (Config.pinMap p)]
      else [.setPinOutputLow (Config.pinMap p)] := by
  cases b <;> rfl

/-- An acknowledge put on a line is the call that drives it low for ACK and releases it for NACK
(40_line_driver R115). -/
theorem calls_of_modeOfAck (p : Pin) (a : Bool) :
    [Event.mode p (modeOfAck a)].filterMap platformCall =
      if a then [.setPinOutputLow (Config.pinMap p)]
      else [.setPinInputPullup (Config.pinMap p)] := by
  cases a <;> rfl

end Sys2Proof.Machine
end

section
/-! The statement of 60_exceptions.md about the platform calls. -/

namespace Sys2Proof.Proofs

open Sys2Proof Sys2Proof.Machine

/-- Settles O45: the event that ends a command stands for no platform call, so a step's calls are
those of its micro-operation's events. -/
theorem platformCallsOfMicroOperations : Obligations.PlatformCallsOfMicroOperations := by
  intro i op s t hr h
  obtain ⟨es, he, hes⟩ := exec_events hr h
  have hnone : es.filterMap platformCall = [] := by
    obtain rfl | ⟨a, d, rfl⟩ | rfl := hes <;> rfl
  refine ⟨microEvents i s op ++ es, by rw [he, List.append_assoc], ?_⟩
  rw [List.filterMap_append, hnone, List.append_nil]
  cases op with
  | putbit => exact calls_of_modeOfBit i.sda (currentBit s)
  | putack => exact calls_of_modeOfAck i.sda i.ackBit
  | rel l => rfl
  | drv l => rfl
  | await l => rfl
  | wait => rfl
  | shift => rfl
  | sampleAck => rfl
  | sampleBit => rfl

end Sys2Proof.Proofs
end

section
/-! The bus handle and its place in a command word (30_encoding R70 to R75), and the match and mask
table against the decoder (R77, R81). -/

namespace Sys2Proof

/-! ### The bus handle -/

/-- The low nibble of a signed integer at 8 bits is the integer at 4 bits. -/
theorem ofInt_low_nibble (x : Int) : (BitVec.ofInt 8 x).setWidth 4 = BitVec.ofInt 4 x := by
  apply BitVec.eq_of_toNat_eq
  simp only [BitVec.toNat_setWidth, BitVec.toNat_ofInt]
  omega

theorem sdaOf_encodeHandle (p q : Int) : sdaOf (encodeHandle p q) = BitVec.ofInt 4 p := by
  rw [← ofInt_low_nibble]
  refine BitVec.eq_of_getLsbD_eq fun i hi => ?_
  simp only [sdaOf, encodeHandle, BitVec.getLsbD_extractLsb', BitVec.getLsbD_setWidth]
  interval_cases i <;> simp

theorem sclOf_encodeHandle (p q : Int) : sclOf (encodeHandle p q) = BitVec.ofInt 4 q := by
  rw [← ofInt_low_nibble]
  refine BitVec.eq_of_getLsbD_eq fun i hi => ?_
  simp only [sclOf, encodeHandle, BitVec.getLsbD_extractLsb', BitVec.getLsbD_setWidth]
  interval_cases i <;> simp

/-- A 4-bit value of an integer is its residue mod 16. -/
theorem toNat_ofInt_pin (x : Int) : ((BitVec.ofInt 4 x).toNat : Int) = x % 16 := by
  rw [BitVec.toNat_ofInt]
  omega

/-- A handle is put together again from its two pins. -/
theorem sdaOf_append_sclOf (h : Byte) : sdaOf h ++ sclOf h = h := by
  refine BitVec.eq_of_getLsbD_eq fun i hi => ?_
  simp only [sdaOf, sclOf, BitVec.getLsbD_append, BitVec.getLsbD_extractLsb']
  interval_cases i <;> simp

theorem handleField_commandWord (p q : Pin) (op : BitVec 4) (a : Bool) (d : Byte) :
    handleField (commandWord p q op a d) = p ++ q := by
  refine BitVec.eq_of_getLsbD_eq fun i hi => ?_
  rw [handleField, BitVec.getLsbD_extractLsb', commandWord_getLsbD, BitVec.getLsbD_append]
  interval_cases i <;> simp

theorem sdaOf_handleField (w : Word) : sdaOf (handleField w) = sdaField w := by
  refine BitVec.eq_of_getLsbD_eq fun i hi => ?_
  simp only [sdaOf, handleField, sdaField, BitVec.getLsbD_extractLsb']
  interval_cases i <;> simp

theorem sclOf_handleField (w : Word) : sclOf (handleField w) = sclField w := by
  refine BitVec.eq_of_getLsbD_eq fun i hi => ?_
  simp only [sclOf, handleField, sclField, BitVec.getLsbD_extractLsb']
  interval_cases i <;> simp

/-- Encoding the two pins of a handle gives the handle. -/
theorem encodeHandle_pins (h : Byte) : encodeHandle (sdaOf h).toNat (sclOf h).toNat = h := by
  rw [← sdaOf_append_sclOf (encodeHandle _ _), sdaOf_encodeHandle, sclOf_encodeHandle]
  simp [sdaOf_append_sclOf]

/-- The handle of a command's word is that of its two pins. -/
theorem handleField_encode (i : Instr) : handleField (encode i) = i.sda ++ i.scl := by
  rw [encode_eq, handleField_commandWord]

/-! ### Legality -/

/-- Legality field by field, in the words of R77. -/
theorem legalWord_iff (w : Word) :
    legalWord w = true ↔
      (1 ≤ (opField w).toNat ∧ (opField w).toNat ≤ 5) ∧ rsvField w = 0 ∧
      (ackField w = true → opField w = 5) ∧ (dataField w ≠ 0 → opField w = 4) := by
  have ack : ackAllowed (opField w) (ackField w) = true ↔
      (ackField w = true → opField w = 5) := by
    cases h : ackField w <;> simp [ackAllowed]
  have data : dataAllowed (opField w) (dataField w) = true ↔
      (dataField w ≠ 0 → opField w = 4) := by
    simp [dataAllowed, or_iff_not_imp_left]
  simp [legalWord, fieldsLegal, opDefined, rsvClear, ack, data, and_assoc]

/-- A legal word decodes: its opcode picks the command, and its fields are those the command's arm
of the decoder asks for. -/
theorem decode_of_legalWord {w : Word} (h : legalWord w = true) : ∃ i, decode w = .ok i := by
  obtain ⟨⟨hlo, hhi⟩, hr, ha, hd⟩ := (legalWord_iff w).mp h
  have op : (opField w).toNat = 1 ∨ (opField w).toNat = 2 ∨ (opField w).toNat = 3 ∨
      (opField w).toNat = 4 ∨ (opField w).toNat = 5 := by omega
  have not_op : ∀ {k n : Nat}, (opField w).toNat = k → k ≠ n → n < 16 →
      opField w ≠ BitVec.ofNat 4 n := by
    intro k n hk hne hn e
    rw [e, BitVec.toNat_ofNat, Nat.mod_eq_of_lt hn] at hk
    exact hne hk.symm
  have no_ack : ∀ {k : Nat}, (opField w).toNat = k → k ≠ 5 → ackField w = false :=
    fun hk hne => eq_false_of_ne_true fun e => not_op hk hne (by decide) (ha e)
  have no_data : ∀ {k : Nat}, (opField w).toNat = k → k ≠ 4 → dataField w = 0 :=
    fun hk hne => not_not.mp fun e => not_op hk hne (by decide) (hd e)
  unfold decode
  rw [if_pos hr]
  rcases op with e | e | e | e | e <;> rw [e]
  · simp [decodeBare, no_ack e, no_data e]
  · simp [decodeBare, no_ack e, no_data e]
  · simp [decodeBare, no_ack e, no_data e]
  · simp [decodeWrite, no_ack e]
  · simp [decodeRead, no_data e]
end Sys2Proof

namespace Sys2Proof.Machine

theorem decode_iff_legalWord (w : Word) : (∃ i, decode w = .ok i) ↔ legalWord w = true :=
  ⟨fun ⟨_, h⟩ => legalWord_of_decode h, decode_of_legalWord⟩

/-- The decoder and the encoder are inverse to each other on legal words. -/
theorem decode_eq_ok_iff (w : Word) (i : Instr) : decode w = .ok i ↔ encode i = w :=
  ⟨fun h => (eq_encode_of_decode h).symm, fun h => h ▸ decode_encode i⟩

/-! ### The match and mask table -/

/-- Words agree when their fields do. -/
theorem word_eq_iff_fields (v w : Word) :
    v = w ↔ sdaField v = sdaField w ∧ sclField v = sclField w ∧ opField v = opField w ∧
      rsvField v = rsvField w ∧ ackField v = ackField w ∧ dataField v = dataField w := by
  refine ⟨fun h => by simp [h], fun ⟨hp, hq, ho, hr, ha, hd⟩ => ?_⟩
  have join : ∀ u : Word,
      u = sdaField u ++ sclField u ++ opField u ++ rsvField u ++ BitVec.ofBool (ackField u) ++
        dataField u := by
    intro u
    refine BitVec.eq_of_getLsbD_eq fun i hi => ?_
    simp only [sdaField, sclField, opField, rsvField, ackField, dataField, BitVec.getLsbD_append,
      BitVec.getLsbD_extractLsb', BitVec.getLsbD_ofBool]
    interval_cases i <;> simp
  rw [join v, join w, hp, hq, ho, hr, ha, hd]

/-- A row covers a word when the word's fields under those of the mask are those of the pattern. -/
theorem covers_iff_fields (r : OpcodeRow) (w : Word) :
    r.covers w = true ↔
      sdaField w &&& sdaField r.mask = sdaField r.pattern ∧
      sclField w &&& sclField r.mask = sclField r.pattern ∧
      opField w &&& opField r.mask = opField r.pattern ∧
      rsvField w &&& rsvField r.mask = rsvField r.pattern ∧
      (ackField w && ackField r.mask) = ackField r.pattern ∧
      dataField w &&& dataField r.mask = dataField r.pattern := by
  rw [OpcodeRow.covers, beq_iff_eq, word_eq_iff_fields]
  simp [sdaField, sclField, opField, rsvField, ackField, dataField, BitVec.extractLsb'_and]

/-- The fields of every row: a mask covers OP and RSV, A but in READ's row, and D but in WRITE's. -/
theorem row_fields : ∀ r ∈ opcodeTable,
    (sdaField r.pattern = 0 ∧ sclField r.pattern = 0 ∧ rsvField r.pattern = 0 ∧
      ackField r.pattern = false ∧ dataField r.pattern = 0) ∧
    sdaField r.mask = 0 ∧ sclField r.mask = 0 ∧ opField r.mask = BitVec.allOnes 4 ∧
    rsvField r.mask = BitVec.allOnes 3 ∧ ackField r.mask = (opField r.pattern != 5) ∧
    dataField r.mask = (if opField r.pattern = 4 then 0 else BitVec.allOnes 8) ∧
    (1 ≤ (opField r.pattern).toNat ∧ (opField r.pattern).toNat ≤ 5) := by
  decide

/-- A row covers exactly the legal words of its opcode. -/
theorem covers_iff_legalWord {r : OpcodeRow} (hr : r ∈ opcodeTable) (w : Word) :
    r.covers w = true ↔ opField w = opField r.pattern ∧ legalWord w = true := by
  obtain ⟨⟨p1, p2, p3, p4, p5⟩, m1, m2, m3, m4, m5, m6, hop⟩ := row_fields r hr
  rw [covers_iff_fields, legalWord_iff, p1, p2, p3, p4, p5, m1, m2, m3, m4, m5, m6]
  have ack : (ackField w && (opField r.pattern != 5)) = false ↔
      (ackField w = true → opField r.pattern = 5) := by
    cases ackField w <;> simp
  have data : dataField w &&& (if opField r.pattern = 4 then 0 else BitVec.allOnes 8) = 0 ↔
      (dataField w ≠ 0 → opField r.pattern = 4) := by
    split
    · next h => simp [h]
    · next h => rw [BitVec.and_allOnes, iff_false_intro h, imp_false, not_not]
  rw [ack, data]
  constructor
  · rintro ⟨-, -, ho, hr, ha, hd⟩
    rw [BitVec.and_allOnes] at ho hr
    rw [ho]
    exact ⟨rfl, hop, hr, ha, hd⟩
  · rintro ⟨ho, -, hr, ha, hd⟩
    rw [← ho, hr]
    exact ⟨BitVec.and_zero, BitVec.and_zero, BitVec.and_allOnes, BitVec.zero_and, ha, hd⟩

/-- The opcode of a row and its mnemonic name the same command. -/
theorem row_opcode_iff_mnemonic {r : OpcodeRow} (hr : r ∈ opcodeTable) (i : Instr) :
    i.opcode = opField r.pattern ↔ r.mnemonic = i.mnemonic := by
  have key : ∀ r ∈ opcodeTable, ∀ k ∈ [(1, "INIT"), (2, "START"), (3, "STOP"), (4, "WRITE"),
      (5, "READ")], k.1 = opField r.pattern ↔ r.mnemonic = k.2 := by decide
  have hk : (i.opcode, i.mnemonic) ∈ [(1, "INIT"), (2, "START"), (3, "STOP"), (4, "WRITE"),
      (5, "READ")] := by
    cases i <;> simp [Instr.opcode, Instr.mnemonic]
  exact key r hr _ hk

/-- Every command has a row. -/
theorem row_of_command (i : Instr) : ∃ r ∈ opcodeTable, i.opcode = opField r.pattern := by
  have key : ∀ k ∈ [1, 2, 3, 4, 5], ∃ r ∈ opcodeTable, k = opField r.pattern := by decide
  have hk : i.opcode ∈ [1, 2, 3, 4, 5] := by
    cases i <;> simp [Instr.opcode]
  exact key _ hk

/-- No two rows have one opcode. -/
theorem row_unique : ∀ q ∈ opcodeTable, ∀ r ∈ opcodeTable,
    opField q.pattern = opField r.pattern → q = r := by
  decide

/-- The rows that cover a word that decodes are those of its command's opcode. -/
theorem covers_of_decode {r : OpcodeRow} (hr : r ∈ opcodeTable) {w : Word} {i : Instr}
    (h : decode w = .ok i) : r.covers w = true ↔ i.opcode = opField r.pattern := by
  obtain ⟨-, -, -, hop, -, -⟩ := decode_fields h
  rw [covers_iff_legalWord hr, hop]
  exact and_iff_left (legalWord_of_decode h)

theorem legalWord_iff_covered (w : Word) :
    legalWord w = true ↔ ∃ r ∈ opcodeTable, r.covers w = true := by
  refine ⟨fun h => ?_, fun ⟨r, hr, hc⟩ => ((covers_iff_legalWord hr w).mp hc).2⟩
  obtain ⟨i, hi⟩ := decode_of_legalWord h
  obtain ⟨r, hr, ho⟩ := row_of_command i
  exact ⟨r, hr, (covers_of_decode hr hi).mpr ho⟩

/-! ### The assembler's lines (R82 to R88) -/

/-- The address byte is twice the address and the direction bit (R85, R87). -/
theorem addressByte_eq {addr : Nat} (h : addr ≤ 127) (dir : Bool) :
    addressByte addr dir = .ok (BitVec.ofNat 8 (2 * addr + dir.toNat)) := by
  have low := Nat.two_pow_add_eq_or_of_lt (i := 1) dir.toNat_lt addr
  rw [addressByte, if_pos h]
  congr 1
  apply BitVec.eq_of_toNat_eq
  have hdir := dir.toNat_lt
  simp only [BitVec.toNat_or, BitVec.toNat_shiftLeft, BitVec.toNat_ofNat, BitVec.toNat_setWidth,
    BitVec.toNat_ofBool, Nat.shiftLeft_eq]
  rw [Nat.mod_eq_of_lt (a := addr) (by omega), Nat.mod_eq_of_lt (a := addr * 2 ^ 1) (by omega),
    Nat.mod_eq_of_lt (a := dir.toNat) (by omega), Nat.mod_eq_of_lt (by omega), Nat.mul_comm, ← low]

theorem addressByte_error {addr : Nat} (h : 127 < addr) (dir : Bool) :
    addressByte addr dir = .error .addressTooLarge :=
  if_neg (by omega)

theorem addressed_ok {h : HandleOperand} {v : Byte} (hv : handleValue h = .ok v) {addr : Nat}
    (ha : addr ≤ 127) (dir : Bool) :
    addressed h addr dir = .ok [.start (sdaOf v) (sclOf v),
      .write (sdaOf v) (sclOf v) (BitVec.ofNat 8 (2 * addr + dir.toNat))] := by
  simp [addressed, hv, addressByte_eq ha]

theorem addressed_error {h : HandleOperand} {v : Byte} (hv : handleValue h = .ok v) {addr : Nat}
    (ha : 127 < addr) (dir : Bool) : addressed h addr dir = .error .addressTooLarge := by
  simp [addressed, hv, addressByte_error ha]

/-- A line whose handle is refused is refused on that ground. -/
theorem expand_of_handle_error {l : AsmLine} {e : AsmRefusal}
    (h : handleValue (lineHandle l) = .error e) : expand l = .error e := by
  cases l <;> simp only [lineHandle] at h <;> simp [expand, addressed, h, Except.map]

/-- The commands of an accepted line: at least one, all on the pins of the line's handle. -/
theorem expand_of_handle_ok {l : AsmLine} {v : Byte} {is : List Instr}
    (h : handleValue (lineHandle l) = .ok v) (hx : expand l = .ok is) :
    is ≠ [] ∧ ∀ i ∈ is, i.sda = sdaOf v ∧ i.scl = sclOf v := by
  have pair : ∀ {h addr dir}, handleValue h = .ok v → addressed h addr dir = .ok is →
      is ≠ [] ∧ ∀ i ∈ is, i.sda = sdaOf v ∧ i.scl = sclOf v := by
    intro h addr dir hv hx
    by_cases ha : addr ≤ 127
    · rw [addressed_ok hv ha] at hx
      cases hx
      simp [Instr.sda, Instr.scl]
    · rw [addressed_error hv (by omega)] at hx
      cases hx
  cases l with
  | beginTx _ _ => exact pair h hx
  | requestFrom _ _ _ => exact pair h hx
  | write k n =>
    simp only [lineHandle] at h
    cases hb : byteValue n with
    | error e => simp [expand, h, hb] at hx
    | ok b =>
      simp only [expand, h, hb, Except.ok.injEq] at hx
      simp [← hx, Instr.sda, Instr.scl]
  | init _ | start _ | stop _ | read _ _ | begin_ _ | endTx _ =>
    simp only [lineHandle] at h
    simp only [expand, h, Except.map, Except.ok.injEq] at hx
    simp [← hx, Instr.sda, Instr.scl]

end Sys2Proof.Machine
end

section
/-! The statements of 30_encoding.md. -/

namespace Sys2Proof.Proofs

open Sys2Proof Sys2Proof.Machine

/-- Settles O3: a word that decodes is put together again from its fields, and the word of each
command decodes to it. -/
theorem decodeExactlyInvertsEncode : Obligations.DecodeExactlyInvertsEncode :=
  decode_eq_ok_iff

/-- Settles O1: each nibble of a handle is its pin number at 4 bits. -/
theorem handleRoundTripAndTruncation : Obligations.HandleRoundTripAndTruncation := by
  refine ⟨fun p q => ?_, fun p q => ?_, fun p q => ?_, fun p q h => if_neg (by omega)⟩
  · simp [sdaOf_encodeHandle, sclOf_encodeHandle]
  · have mask : ∀ x : Nat, x &&& 15 = x % 16 := fun x => Nat.and_two_pow_sub_one_eq_mod x 4
    simp [sdaOf_encodeHandle, sclOf_encodeHandle, mask]
  · rw [sdaOf_encodeHandle, sclOf_encodeHandle]
    exact ⟨toNat_ofInt_pin p, toNat_ofInt_pin q⟩

/-- Settles O2: the handle field holds the two pins side by side. -/
theorem handleFieldOfWord : Obligations.HandleFieldOfWord := by
  refine ⟨fun w => ⟨?_, (sdaOf_handleField w).symm, (sclOf_handleField w).symm⟩, fun h op a d => ?_⟩
  · rw [← sdaOf_handleField, ← sclOf_handleField, encodeHandle_pins]
  · rw [handleField_commandWord, sdaOf_append_sclOf]

/-- Settles O4: a row covers the legal words of its opcode, and a legal word decodes to the command
of its opcode. -/
theorem decoderAcceptsExactlyLegalWords : Obligations.DecoderAcceptsExactlyLegalWords :=
  fun w => ⟨legalWord_iff w, legalWord_iff_covered w, decode_iff_legalWord w,
    fun i hi _ hr => (covers_of_decode hr hi).trans (row_opcode_iff_mnemonic hr i)⟩

/-- Settles O5: a legal word is covered by the one row of its opcode, an illegal one by none. -/
theorem everyWordOneCommandOrIllegal : Obligations.EveryWordOneCommandOrIllegal := by
  intro w
  cases hd : decode w with
  | ok i =>
    obtain ⟨r, hr, ho⟩ := row_of_command i
    refine .inl ⟨⟨i, rfl⟩, r, hr, (covers_of_decode hr hd).mpr ho, fun q hq hc => ?_⟩
    exact row_unique q hq r hr (((covers_of_decode hq hd).mp hc).symm.trans ho)
  | error e =>
    refine .inr ⟨⟨e, rfl⟩, fun r hr => eq_false_of_ne_true fun hc => ?_⟩
    obtain ⟨i, hi⟩ := decode_of_legalWord ((legalWord_iff_covered w).mpr ⟨r, hr, hc⟩)
    rw [hd] at hi
    cases hi

/-- Settles O6: each word is evaluated. -/
theorem writtenOutWordsDecode : Obligations.WrittenOutWordsDecode :=
  ⟨rfl, rfl, rfl, rfl, rfl, rfl, rfl⟩

/-- Settles O58: the handle is accepted, and an address up to 127 gives its address byte. -/
theorem pseudoCommandExpansions : Obligations.PseudoCommandExpansions := by
  intro h v hv
  refine ⟨by simp [expand, hv, Except.map], by simp [expand, hv, Except.map],
    fun addr qty ha => ⟨addressed_ok hv ha false, addressed_ok hv ha true⟩⟩

/-- Settles O59: a refused handle refuses its line, and a large address both lines that have one. -/
theorem assemblerRefusesLargeOperands : Obligations.AssemblerRefusesLargeOperands := by
  refine ⟨fun l p q hl hpq => expand_of_handle_error ?_,
    fun h v addr qty hv ha => ⟨addressed_error hv ha false, addressed_error hv ha true⟩⟩
  rw [hl]
  exact if_neg (by omega)

/-- Settles O60: each word is the encoding of a command of the line's expansion. -/
theorem assembledWordsAreLegal : Obligations.AssembledWordsAreLegal := by
  intro l ws h
  cases hv : handleValue (lineHandle l) with
  | error e => simp [assembleLine, expand_of_handle_error hv, Except.map] at h
  | ok v =>
    cases hx : expand l with
    | error e => simp [assembleLine, hx, Except.map] at h
    | ok is =>
      obtain ⟨hne, hpins⟩ := expand_of_handle_ok hv hx
      have hws : is.map encode = ws := by simpa [assembleLine, hx, Except.map] using h
      subst hws
      refine ⟨v, is, rfl, rfl, by simpa using hne, by simp, fun w hw => ?_⟩
      obtain ⟨i, hi, rfl⟩ := List.mem_map.mp hw
      obtain ⟨hsda, hscl⟩ := hpins i hi
      refine ⟨legalWord_of_decode (decode_encode i), ?_⟩
      rw [handleField_encode, hsda, hscl, sdaOf_append_sclOf]

end Sys2Proof.Proofs
end

section
/-! The invariant of a run is kept by every step (10_state R25 to R30, 40_line_driver R104,
41_bus_conditions R146), and the steps that answer a next state from it. -/

namespace Sys2Proof.Machine

/-! ### The invariant and the fields it speaks of -/

/-- What holds of a command in flight depends on the pins, UPC, SHREG and where polls count. -/
theorem InFlight.congr {i : Instr} {s t : State} (h : InFlight i s) (hp : ∀ p, t.mode p = s.mode p)
    (hu : t.upc = s.upc) (hv : t.shreg = s.shreg)
    (hk : t.polls ≠ 0 → (sequenceOf i)[s.upc.toNat]? = some (.await .scl)) : InFlight i t where
  upcInside := hu ▸ h.upcInside
  pollsAwait := hu ▸ hk
  awaitReleased := by rw [hu, hp]; exact h.awaitReleased
  sdaDriver := by rw [hu, hp]; exact h.sdaDriver
  sclDriver := by rw [hu, hp]; exact h.sclDriver
  shregShifted := by rw [hu, hv]; exact h.shregShifted

/-- The invariant does not speak of the environment, the host or the record. -/
theorem State.Inv.congr {s t : State} (h : s.Inv) (hp : t.pinMode = s.pinMode) (hc : t.cur = s.cur)
    (hu : t.upc = s.upc) (hv : t.shreg = s.shreg) (hk : t.polls = s.polls)
    (hb : t.status.busy = s.status.busy) (hl : t.stretchLimit = s.stretchLimit) : t.Inv where
  limitValid := hl ▸ h.limitValid
  pollsBelowLimit := by rw [hl, hk]; exact h.pollsBelowLimit
  upcRange := hu ▸ h.upcRange
  pollsIdle := by rw [hb, hk]; exact h.pollsIdle
  inFlight := by
    rw [hb, hc]
    intro hbusy
    obtain ⟨i, hd, hf⟩ := h.inFlight hbusy
    exact ⟨i, hd, hf.congr (mode_congr hp) hu hv (hk ▸ hf.pollsAwait)⟩

theorem State.Inv.dropAction {s : State} (h : s.Inv) : (dropAction s).Inv :=
  h.congr rfl rfl rfl rfl rfl rfl rfl

/-- A valid limit is not reached before the first poll. -/
theorem pollsBelow_zero {l : StretchLimit} (h : l.valid = true) : pollsBelow l 0 = true := by
  cases l with
  | unbounded => rfl
  | bounded n => exact h

/-- A poll that does not reach the limit stays below it. -/
theorem pollsBelow_succ {l : StretchLimit} {k : Nat} (h : pollsBelow l k = true)
    (hr : limitReached l (k + 1) = false) : pollsBelow l (k + 1) = true := by
  cases l with
  | unbounded => rfl
  | bounded n =>
    simp only [pollsBelow, limitReached, decide_eq_true_eq, beq_eq_false_iff_ne] at h hr ⊢
    omega

/-- With BUSY = 0 the invariant speaks of the limit, UPC and POLLS only. -/
theorem inv_of_idle {s : State} (hl : s.stretchLimit.valid = true) (hu : s.upc.toNat ≤ 64)
    (hk : s.polls = 0) (hb : s.status.busy = false) : s.Inv where
  limitValid := hl
  pollsBelowLimit := hk ▸ pollsBelow_zero hl
  upcRange := hu
  pollsIdle := fun _ => hk
  inFlight := fun h => absurd (hb.symm.trans h) (by decide)

/-- With BUSY = 1 the rest follows from what holds of the command in flight. -/
theorem inv_of_inFlight {i : Instr} {s : State} (hl : s.stretchLimit.valid = true)
    (hk : pollsBelow s.stretchLimit s.polls = true) (hb : s.status.busy = true)
    (hc : s.cur = encode i) (hf : InFlight i s) : s.Inv where
  limitValid := hl
  pollsBelowLimit := hk
  upcRange := (Nat.le_of_lt hf.upcInside).trans (length_sequenceOf_le i)
  pollsIdle := fun h => absurd (hb.symm.trans h) (by decide)
  inFlight := fun _ => ⟨i, hc ▸ decode_encode i, hf⟩

/-- The command in flight, its micro-operation, and what holds of it. -/
theorem State.Inv.running {s : State} (h : s.Inv) (hb : s.status.busy = true) :
    ∃ i op, decode s.cur = .ok i ∧ runs i op s ∧ InFlight i s := by
  obtain ⟨i, hd, hf⟩ := h.inFlight hb
  exact ⟨i, _, hd, ⟨hb, eq_encode_of_decode hd, List.getElem?_eq_getElem hf.upcInside⟩, hf⟩

theorem State.Inv.inFlight_of_runs {i : Instr} {op : MicroOp} {s : State} (h : s.Inv)
    (hr : runs i op s) : InFlight i s := by
  obtain ⟨j, hd, hf⟩ := h.inFlight hr.1
  rw [hr.2.1, decode_encode] at hd
  cases hd
  exact hf

/-! ### Steps that keep it -/

/-- No sequence begins with an AWAIT. -/
theorem await_index_pos {i : Instr} {l : Line} {n : Nat}
    (h : (sequenceOf i)[n]? = some (.await l)) : 0 < n := by
  have key : everyEntry (sequenceOf i)
      (fun n op => op != .await .scl || decide (0 < n)) = true := by
    cases i <;> rfl
  rw [await_on_scl h] at h
  simpa using everyEntry_get key h

/-- A command just accepted has written no pin and shifted nothing. -/
theorem inFlight_accept (i : Instr) (s : State) : InFlight i (accept (encode i) (loadOf i s)) where
  upcInside := length_sequenceOf_pos i
  pollsAwait := fun h => absurd rfl h
  awaitReleased := fun h => absurd (await_index_pos h) (by simp)
  sdaDriver := fun _ => by simp [Drivers.none, agrees]
  sclDriver := fun _ => by simp [Drivers.none, agrees]
  shregShifted := by
    intro h
    rw [eq_write_of_opcode h]
    simp [loadOf, loadWrite, Drivers.none, Instr.dataByte]

theorem inv_accept {s : State} (h : s.Inv) (i : Instr) : (accept (encode i) (loadOf i s)).Inv := by
  have hl : (accept (encode i) (loadOf i s)).stretchLimit = s.stretchLimit :=
    (loadOf_frame i s).2.1
  exact inv_of_inFlight (hl ▸ h.limitValid) (pollsBelow_zero (hl ▸ h.limitValid)) rfl rfl
    (inFlight_accept i s)

/-- Only an AWAIT counts polls (10_state R30). -/
theorem execMicro_polls {op : MicroOp} (h : ∀ l, op ≠ .await l) (s : State) :
    (execMicro op s).state.polls = s.polls := by
  cases op with
  | await l => exact absurd rfl (h l)
  | sampleAck => simp [execMicro, microSampleAck, afterLineRead_frame]
  | sampleBit => simp [execMicro, microSampleBit, afterLineRead_frame]
  | rel l => rfl
  | drv l => rfl
  | wait => rfl
  | putbit => rfl
  | shift => rfl
  | putack => rfl

/-- POLLS counts nothing at a micro-operation that is no AWAIT. -/
theorem InFlight.polls_eq_zero {i : Instr} {op : MicroOp} {s : State} (hf : InFlight i s)
    (hr : runs i op s) (h : op ≠ .await .scl) : s.polls = 0 := by
  by_contra hk
  exact h (Option.some.inj (hr.2.2.symm.trans (hf.pollsAwait hk)))

/-- A micro-operation that is done leaves no poll counted. -/
theorem polls_after_done {i : Instr} {op : MicroOp} {s : State} (hf : InFlight i s)
    (hr : runs i op s) (hd : execMicro op s = .done (execMicro op s).state) :
    (execMicro op s).state.polls = 0 := by
  by_cases ha : op = .await .scl
  · subst ha
    rcases microAwait_cases .scl s with ⟨-, e⟩ | ⟨-, -, e⟩ | ⟨-, -, e⟩ <;> rw [execMicro, e] at hd ⊢
    · rfl
    · cases hd
    · cases hd
  · rw [execMicro_polls _ s, hf.polls_eq_zero hr ha]
    rintro l rfl
    exact ha (by rw [await_on_scl hr.2.2])

/-- The next micro-operation finds the command as the invariant says. -/
theorem inFlight_moves {i : Instr} {op : MicroOp} {s t : State} (hf : InFlight i s)
    (hr : runs i op s) (h : exec i s = .next t) (hu : t.upc = s.upc + 1) (hm : moreToRun i s)
    (hk : t.polls = 0) : InFlight i t := by
  have hn : t.upc.toNat = s.upc.toNat + 1 := hu ▸ upc_succ_toNat hf.upcInside
  refine ⟨hn ▸ hm, fun h0 => absurd hk h0, ?_, ?_, ?_, ?_⟩ <;> rw [hn]
  · intro ha
    have ho : op = .rel .scl := Option.some.inj (hr.2.2.symm.trans (rel_before_await ha))
    rw [exec_mode hr h, ho]
    simp [writtenLine, pinOf]
  · exact fun hne => (drivers_after hf hr h hne).1
  · exact fun hne => (drivers_after hf hr h hne).2
  · intro h4
    rw [exec_shreg hr h, hf.shregShifted h4, driversAt_shifts, driversAt_shifts, List.take_add_one,
      hr.2.2]
    split
    · next ho => simp [ho, shiftLeft, BitVec.shiftLeft_add]
    · next ho => simp [ho]

/-- A step of the command in flight keeps the invariant. -/
theorem inv_exec {i : Instr} {op : MicroOp} {s t : State} (hi : s.Inv) (hr : runs i op s)
    (h : exec i s = .next t) : t.Inv := by
  have hf := hi.inFlight_of_runs hr
  obtain ⟨hcur, hlim, -, -⟩ := exec_frame hr h
  have hvalid : t.stretchLimit.valid = true := hlim ▸ hi.limitValid
  have hn := upc_succ_toNat hf.upcInside
  have hle := length_sequenceOf_le i
  have hin := hf.upcInside
  obtain ⟨hpins, hshreg, hout⟩ := exec_outcome hr h
  cases hout with
  | moves hst hu hm hd hk _ =>
    have hk0 : t.polls = 0 := hk.trans (polls_after_done hf hr hd)
    exact inv_of_inFlight hvalid (hk0 ▸ pollsBelow_zero hvalid) (hst ▸ hr.1) (hcur.trans hr.2.1)
      (inFlight_moves hf hr h hu hm hk0)
  | completes hb _ _ hu _ hw hk _ =>
    have hk0 : s.polls = 0 := hf.polls_eq_zero hr (by rintro rfl; cases hw)
    exact inv_of_idle hvalid (by rw [hu]; omega) (hk.trans hk0) hb
  | holds ha _ hst hu hk hlow _ =>
    subst ha
    refine inv_of_inFlight hvalid ?_ (hst ▸ hr.1) (hcur.trans hr.2.1) ?_
    · rw [hlim, hk]
      exact pollsBelow_succ hi.pollsBelowLimit hlow
    · exact hf.congr (exec_mode hr h) hu (exec_shreg hr h) fun _ => hr.2.2
  | timesOut _ _ hst hu hk _ _ =>
    exact inv_of_idle hvalid (by rw [hu]; omega) hk (by rw [hst])

/-- Every step keeps the invariant. -/
theorem inv_step {s t : State} (hi : s.Inv) (h : step s = .next t) : t.Inv := by
  have exec_case : ∀ {i u}, u.Inv → exec i u = .next t → t.Inv := by
    intro i u hu he
    obtain ⟨-, rfl⟩ | ⟨op, hr, -⟩ := exec_next he
    · exact inv_accept hu i
    · exact inv_exec hu hr he
  rcases step_next h with ⟨w, -, hb, ⟨e, -, rfl⟩ | ⟨i, -, he⟩⟩ | ⟨-, rfl⟩ | ⟨-, rfl⟩ | ⟨-, -, rfl⟩ |
    ⟨u, hu, hturn⟩
  · exact hi.congr rfl rfl rfl rfl rfl hb.symm rfl
  · exact exec_case hi.dropAction he
  · exact hi.congr rfl rfl rfl rfl rfl rfl rfl
  · exact inv_of_idle hi.limitValid (Nat.zero_le _) rfl rfl
  · exact hi.dropAction
  · have hui : u.Inv := by
      obtain ⟨rfl, -⟩ | ⟨rfl, -⟩ := hu
      · exact hi
      · exact hi.dropAction
    obtain ⟨-, rfl⟩ | ⟨-, i, -, he⟩ := hturn
    · exact hui
    · exact exec_case hui he

/-! ### Steps that answer a next state -/

/-- From the invariant the sequencer's turn answers a next state: no fault (log 8). -/
theorem sequencerTurn_answers {s : State} (hi : s.Inv) : ∃ t, sequencerTurn s = .next t := by
  cases hb : s.status.busy with
  | false => exact ⟨s, sequencerTurn_idle hb⟩
  | true =>
    obtain ⟨i, op, hd, hr, -⟩ := hi.running hb
    rw [sequencerTurn_busy hb hd]
    exact exec_runs_next hr

/-- From the invariant a step answers a next state, but for a CMD write while BUSY = 1. -/
theorem step_answers {s : State} (hi : s.Inv) :
    (∃ t, step s = .next t) ∨
    ∃ w rest, s.host = .writeCmd w :: rest ∧ s.status.busy = true := by
  unfold step turn
  cases hh : s.host with
  | nil => exact .inl (sequencerTurn_answers hi)
  | cons a rest =>
    cases a with
    | writeCmd w =>
      cases hb : s.status.busy with
      | true => exact .inr ⟨w, rest, rfl, rfl⟩
      | false =>
        cases hd : decode w with
        | error e => exact .inl ⟨raiseIllegal w (dropAction s), by simp [writeCmd, hb, hd]⟩
        | ok i =>
          have he := exec_idle (i := i) (s := dropAction s) hb
          exact .inl ⟨_, by simpa [writeCmd, hb, hd] using he⟩
    | readStatus => exact .inl ⟨_, rfl⟩
    | reset => exact .inl ⟨_, rfl⟩
    | pass => exact .inl (sequencerTurn_answers hi.dropAction)
    | waitIdle =>
      cases hb : s.status.busy with
      | true => simpa [waitTurn, hb] using sequencerTurn_answers hi
      | false => exact .inl ⟨dropAction s, by simp [waitTurn, hb]⟩

/-! ### The host's order of actions (70_reset R235) -/

/-- A list that is disciplined where BUSY can be 1 is so where it cannot. -/
theorem disciplined_mono {b c : Bool} {l : List HostAction} (hbc : c = true → b = true)
    (h : disciplined b l = true) : disciplined c l = true := by
  induction l with
  | nil => rfl
  | cons a rest ih =>
    cases a with
    | writeCmd w =>
      simp only [disciplined, Bool.and_eq_true, Bool.not_eq_true'] at h ⊢
      exact ⟨eq_false_of_ne_true fun hc => by simp [hbc hc] at h, h.2⟩
    | readStatus => exact ih h
    | pass => exact ih h
    | waitIdle => exact h
    | reset => exact h

/-- A command's step takes none of the host's actions. -/
theorem exec_host {i : Instr} {s t : State} (h : exec i s = .next t) : t.host = s.host := by
  obtain ⟨-, rfl⟩ | ⟨op, hr, -⟩ := exec_next h
  · obtain ⟨-, -, hhost, -⟩ := loadOf_frame i s
    exact hhost
  · obtain ⟨-, -, hhost, -⟩ := exec_frame hr h
    exact hhost

/-- A step leaves a disciplined list disciplined. -/
theorem disciplined_step {s t : State} (hd : disciplined s.status.busy s.host = true)
    (h : step s = .next t) : disciplined t.status.busy t.host = true := by
  rcases step_next h with ⟨w, hh, hb, hw⟩ | ⟨hh, rfl⟩ | ⟨hh, rfl⟩ | ⟨hh, hb, rfl⟩ |
    ⟨u, hu, hturn⟩
  · rw [hh, hb] at hd
    have htail : t.host = s.host.tail := by
      obtain ⟨e, -, rfl⟩ | ⟨i, -, he⟩ := hw
      · rfl
      · exact exec_host he
    rw [htail]
    exact disciplined_mono (fun _ => rfl) hd
  · rwa [hh] at hd
  · rwa [hh] at hd
  · rw [hh] at hd
    exact disciplined_mono (fun hf => absurd (hb.symm.trans hf) (by decide)) hd
  · have hhost : t.host = u.host := by
      obtain ⟨-, rfl⟩ | ⟨-, i, -, he⟩ := hturn
      · rfl
      · exact exec_host he
    have hbusy : t.status.busy = true → s.status.busy = true := by
      obtain ⟨-, rfl⟩ | ⟨hb, -⟩ := hturn
      · obtain ⟨rfl, -⟩ | ⟨rfl, -⟩ := hu <;> exact id
      · exact fun _ => hb
    rw [hhost]
    obtain ⟨rfl, hh | hh⟩ | ⟨rfl, hh⟩ := hu
    · rw [hh]
      rfl
    · rw [hh] at hd ⊢
      exact hd
    · rw [hh] at hd
      exact disciplined_mono hbusy hd

/-- A host that waits after every command is disciplined. -/
theorem disciplined_blockingActions (ws : List Word) :
    disciplined false (blockingActions ws) = true := by
  induction ws with
  | nil => rfl
  | cons w rest ih => exact ih

end Sys2Proof.Machine
end

section
/-! The statements about the invariant of a run and the host's order of actions. -/

namespace Sys2Proof.Proofs

open Sys2Proof Sys2Proof.Machine

/-- Settles O41: no turn faults from the invariant, and each keeps it. -/
theorem stepKeepsInvariant : Obligations.StepKeepsInvariant := by
  refine fun s hi => ⟨fun f hf => ?_, fun t h => inv_step hi h⟩
  obtain ⟨t, ht⟩ | ⟨w, rest, hh, hb⟩ := step_answers hi
  · rw [ht] at hf
    cases hf
  · rw [step_writeCmd_busy hh hb] at hf
    cases hf

/-- Settles O42: a disciplined list has no CMD write first while BUSY = 1, so the step answers, and
what is left of the list is disciplined. -/
theorem disciplinedHostNeverRefused : Obligations.DisciplinedHostNeverRefused := by
  refine ⟨fun s hi hd => ?_, disciplined_blockingActions⟩
  obtain ⟨t, ht⟩ | ⟨w, rest, hh, hb⟩ := step_answers hi
  · exact ⟨t, ht, inv_step hi ht, disciplined_step hd ht⟩
  · rw [hh, hb] at hd
    cases hd

/-- Settles O40: at reset BUSY is 0, and UPC and POLLS are too. -/
theorem resetSatisfiesInvariant : Obligations.ResetSatisfiesInvariant :=
  inv_of_idle rfl (Nat.zero_le _) rfl rfl

end Sys2Proof.Proofs
end

section
/-! STATUS, acceptance and refusal: the word a host reads, what each step does to STATUS, and the
turns of the host (10_state R32 to R46, 30_encoding R80, 60_exceptions R202). -/

namespace Sys2Proof.Machine

/-! ### The word of STATUS (10_state R32) -/

theorem statusWord_getLsbD (x : Status) {i : Nat} (hi : i < 16) :
    (statusWord x).getLsbD i =
      if i < 8 then x.data.getLsbD i else if i = 8 then x.ack
      else if i < 11 then (stCode x.st).getLsbD (i - 9) else if i = 11 then x.busy
      else if i < 14 then (phaseCode x.phase).getLsbD (i - 12) else false := by
  have h : (statusWord x).getLsbD i =
    (0#2 ++ phaseCode x.phase ++ BitVec.ofBool x.busy ++ stCode x.st ++ BitVec.ofBool x.ack ++
      x.data).getLsbD i := rfl
  rw [h]
  clear h
  simp only [BitVec.getLsbD_append, BitVec.getLsbD_ofBool, BitVec.getLsbD_zero]
  interval_cases i <;> simp

/-! ### The host's turns -/

theorem dropAction_eq {s : State} {a : HostAction} {rest : List HostAction}
    (h : s.host = a :: rest) : dropAction s = { s with host := rest } := by
  simp [dropAction, h]

theorem step_reset {s : State} {rest : List HostAction} (hh : s.host = .reset :: rest) :
    step s = .next (resetMachine (dropAction s)) := by
  simp [step, turn, hh]

/-- A word that is illegal decodes to no command. -/
theorem decode_error_of_illegal {w : Word} (h : legalWord w = false) :
    ∃ e, decode w = .error e := by
  cases hd : decode w with
  | error e => exact ⟨e, rfl⟩
  | ok i => exact absurd (h.symm.trans (legalWord_of_decode hd)) (by decide)

/-- A CMD write to an idle machine is the acceptance of the command the word decodes to. -/
theorem step_writeCmd_idle {s : State} {w : Word} {rest : List HostAction} {i : Instr}
    (hh : s.host = .writeCmd w :: rest) (hb : s.status.busy = false) (hd : decode w = .ok i) :
    step s = exec i { s with host := rest } := by
  rw [← dropAction_eq hh]
  simp [step, turn, hh, writeCmd, hb, hd]

/-- A CMD write of an illegal word to an idle machine is refused. -/
theorem step_writeCmd_illegal {s : State} {w : Word} {rest : List HostAction}
    (hh : s.host = .writeCmd w :: rest) (hb : s.status.busy = false) (hl : legalWord w = false) :
    step s = .next (raiseIllegal w { s with host := rest }) := by
  obtain ⟨e, hd⟩ := decode_error_of_illegal hl
  rw [← dropAction_eq hh]
  simp [step, turn, hh, writeCmd, hb, hd]

/-- Acceptance, field by field (30_encoding R80). -/
theorem exec_idle_eq {i : Instr} {s : State} (hb : s.status.busy = false) :
    exec i s = .next { s with
      cur := encode i, upc := 0, polls := 0, acks := false
      shreg := if i.opcode = 4 then i.dataByte else s.shreg
      acc := if i.opcode = 5 then 0 else s.acc
      status := { s.status with busy := true }
      events := s.events ++ [.accept (encode i)] } := by
  rw [exec_idle hb]
  cases i <;> rfl

/-! ### STATUS over a step -/

/-- What a step other than a reset does to STATUS: nothing, an acceptance, a refusal, a completion,
or a TIMEOUT (10_state R34 to R37). -/
theorem step_status {s t : State} (h : step s = .next t) (hr : s.host.head? ≠ some .reset) :
    t.status = s.status ∨
    (s.status.busy = false ∧ t.status = { s.status with busy := true }) ∨
    (s.status.busy = false ∧ t.status = ⟨s.status.phase, false, .illegal, false, 0⟩) ∨
    (s.status.busy = true ∧ t.status.busy = false ∧ t.status.st = .ok ∧
      ∃ i, decode s.cur = .ok i ∧ t.status.phase = phaseAfter i s.status.phase) ∨
    (s.status.busy = true ∧ t.status = ⟨s.status.phase, false, .timeout, false, 0⟩) := by
  cases hb : s.status.busy with
  | false =>
    rcases step_idle h hb hr with ⟨w, i, -, -, rfl⟩ | ⟨w, rfl⟩ | rfl | rfl | rfl
    · obtain ⟨-, -, -, -, hst, -⟩ := loadOf_frame i (dropAction s)
      exact .inr (.inl ⟨rfl, by rw [accept_status, hst, dropAction_status]⟩)
    · exact .inr (.inr (.inl ⟨rfl, rfl⟩))
    · exact .inl rfl
    · exact .inl rfl
    · exact .inl rfl
  | true =>
    by_cases hs : s.host.head? = some .readStatus
    · rw [step_readStatus hs] at h
      injection h with h
      exact .inl (by rw [← h]; rfl)
    · obtain ⟨i, op, l, hd, hrun, he⟩ := step_busy h hb hr hs
      obtain ⟨-, -, hout⟩ := exec_outcome (s := { s with host := l }) hrun he
      cases hout with
      | moves hst => exact .inl hst
      | completes hbt hok hph => exact .inr (.inr (.inr (.inl ⟨rfl, hbt, hok, i, hd, hph⟩)))
      | holds _ _ hst => exact .inl hst
      | timesOut _ _ hst => exact .inr (.inr (.inr (.inr ⟨rfl, hst⟩)))

/-! ### A command's step seen with another STATUS -/

/-- The same end of a micro-operation, with another STATUS. -/
def MicroResult.withStatus (x : Status) : MicroResult → MicroResult
  | .done s => .done { s with status := x }
  | .hold s => .hold { s with status := x }
  | .limit s => .limit { s with status := x }

theorem spendForRead_withStatus (p : Pin) (s : State) (x : Status) :
    spendForRead p { s with status := x } = { spendForRead p s with status := x } := by
  have hm : State.mode { s with status := x } p = s.mode p := rfl
  unfold spendForRead
  rw [hm]
  cases s.mode p <;> rfl

/-- A line read does not look at STATUS. -/
theorem afterLineRead_withStatus (l : Line) (s : State) (x : Status) :
    afterLineRead l { s with status := x } = { afterLineRead l s with status := x } :=
  congrArg (State.record · _) (spendForRead_withStatus (linePin s.cur l) s x)

/-- A poll does not look at STATUS. -/
theorem pollResult_withStatus (v : Level) (s : State) (x : Status) :
    pollResult v { s with status := x } = (pollResult v s).withStatus x := by
  cases v with
  | high => rfl
  | low =>
    simp only [pollResult]
    split <;> rfl

/-- No micro-operation looks at STATUS (10_state R33, R40). -/
theorem execMicro_withStatus (op : MicroOp) (s : State) (x : Status) :
    execMicro op { s with status := x } = (execMicro op s).withStatus x := by
  cases op with
  | await l =>
    simp only [execMicro, microAwait, afterLineRead_withStatus, pollResult_withStatus]
    rfl
  | sampleAck =>
    simp only [execMicro, microSampleAck, afterLineRead_withStatus]
    rfl
  | sampleBit =>
    simp only [execMicro, microSampleBit, afterLineRead_withStatus]
    rfl
  | rel l => rfl
  | drv l => rfl
  | wait => rfl
  | putbit => rfl
  | shift => rfl
  | putack => rfl

/-- A completion looks at PHASE of STATUS only, and writes all of STATUS and nothing else by it. -/
theorem finishOf_withStatus (i : Instr) (s : State) (x : Status) :
    finishOf i { s with status := x } =
      { finishOf i s with
        status := { (finishOf i s).status with phase := phaseAfter i x.phase } } := by
  cases i <;> rfl

/-- UPC's advance and a completion carry another STATUS on, BUSY alike. -/
theorem advance_withStatus (i : Instr) (s : State) {x : Status} (hx : x.busy = s.status.busy) :
    ∃ y : Status, y.busy = (advance (sequenceOf i).length (finishOf i) s).status.busy ∧
      advance (sequenceOf i).length (finishOf i) { s with status := x } =
        { advance (sequenceOf i).length (finishOf i) s with status := y } := by
  unfold advance
  split
  · refine ⟨_, ?_, finishOf_withStatus i { s with upc := s.upc + 1 } x⟩
    rfl
  · exact ⟨x, hx, rfl⟩

/-- An acceptance loads no field of STATUS and reads none. -/
theorem loadOf_withStatus (i : Instr) (s : State) (x : Status) :
    loadOf i { s with status := x } = { loadOf i s with status := x } := by
  cases i <;> rfl

/-- A command's step with another STATUS, BUSY alike, differs in STATUS only. -/
theorem exec_withStatus {i : Instr} {s t : State} {x : Status} (hx : x.busy = s.status.busy)
    (h : exec i s = .next t) :
    ∃ y : Status, y.busy = t.status.busy ∧
      exec i { s with status := x } = .next { t with status := y } := by
  obtain ⟨hb, rfl⟩ | ⟨op, hr, -⟩ := exec_next h
  · refine ⟨{ x with busy := true }, rfl, ?_⟩
    rw [exec_idle (s := { s with status := x }) (hx.trans hb), loadOf_withStatus]
    rfl
  · have hr' : runs i op { s with status := x } := ⟨hx.trans hr.1, hr.2⟩
    have hst := (execMicro_frame op s).2.2.1
    rw [exec_runs hr] at h
    rw [exec_runs hr', execMicro_withStatus]
    cases hu : execMicro op s with
    | done u =>
      rw [hu] at h hst
      injection h with h
      obtain ⟨y, hy, ha⟩ := advance_withStatus i u (x := x) (by rw [hx, ← hst]; rfl)
      exact ⟨y, h ▸ hy, by rw [← h, ← ha]; rfl⟩
    | hold u =>
      rw [hu] at h hst
      injection h with h
      exact ⟨x, by rw [hx, ← h, ← hst]; rfl, by rw [← h]; rfl⟩
    | limit u =>
      rw [hu] at h
      injection h with h
      exact ⟨⟨x.phase, false, .timeout, false, 0⟩, by rw [← h]; rfl, by rw [← h]; rfl⟩

/-! ### The pins, the configuration and the record over a step -/

/-- No micro-operation makes a pin Unknown (10_state R22). -/
theorem writtenLine_ne_unknown {i : Instr} {s : State} {op : MicroOp} {l : Line} {m : PinMode}
    (h : writtenLine i s op = some (l, m)) : m ≠ .unknown := by
  have bit : ∀ b, modeOfBit b ≠ .unknown := by decide
  have ack : ∀ a, modeOfAck a ≠ .unknown := by decide
  cases op <;> cases h
  case rel => decide
  case drv => decide
  case putbit => exact bit _
  case putack => exact ack _

theorem exec_stretchLimit {i : Instr} {s t : State} (h : exec i s = .next t) :
    t.stretchLimit = s.stretchLimit := by
  obtain ⟨-, rfl⟩ | ⟨op, hr, -⟩ := exec_next h
  · obtain ⟨-, hl, -⟩ := loadOf_frame i s
    exact hl
  · obtain ⟨-, hl, -⟩ := exec_frame hr h
    exact hl

/-- A command's step records one event, or its micro-operation's and the end of the command. -/
theorem exec_record {i : Instr} {s t : State} (h : exec i s = .next t) :
    ∃ es, t.events = s.events ++ es ∧ es.length ≤ 2 := by
  obtain ⟨-, rfl⟩ | ⟨op, hr, -⟩ := exec_next h
  · obtain ⟨-, -, -, -, -, he⟩ := loadOf_frame i s
    exact ⟨[.accept (encode i)], by rw [accept_events, he], by simp⟩
  · obtain ⟨es, he, hes⟩ := exec_events hr h
    have hm : (microEvents i s op).length ≤ 1 := by
      cases op <;> simp [microEvents]
    have hl : es.length ≤ 1 := by
      obtain rfl | ⟨a, d, rfl⟩ | rfl := hes <;> simp
    exact ⟨microEvents i s op ++ es, by rw [he, List.append_assoc], by
      rw [List.length_append]; omega⟩

/-- Every step leaves the stretch limit. -/
theorem step_stretchLimit {s t : State} (h : step s = .next t) :
    t.stretchLimit = s.stretchLimit := by
  rcases step_next h with ⟨w, -, -, ⟨e, -, rfl⟩ | ⟨i, -, he⟩⟩ | ⟨-, rfl⟩ | ⟨-, rfl⟩ | ⟨-, -, rfl⟩ |
    ⟨u, ⟨rfl, -⟩ | ⟨rfl, -⟩, ⟨-, rfl⟩ | ⟨-, i, -, he⟩⟩
  · rfl
  · exact exec_stretchLimit (s := dropAction s) he
  · rfl
  · rfl
  · rfl
  · rfl
  · exact exec_stretchLimit he
  · rfl
  · exact exec_stretchLimit (s := dropAction s) he

/-- Every step appends at most two events. -/
theorem step_record {s t : State} (h : step s = .next t) :
    ∃ es, t.events = s.events ++ es ∧ es.length ≤ 2 := by
  have same : ∀ {u : State}, u.events = s.events →
      ∃ es, u.events = s.events ++ es ∧ es.length ≤ 2 :=
    fun hu => ⟨[], by rw [hu, List.append_nil], by simp⟩
  rcases step_next h with ⟨w, -, -, ⟨e, -, rfl⟩ | ⟨i, -, he⟩⟩ | ⟨-, rfl⟩ | ⟨-, rfl⟩ | ⟨-, -, rfl⟩ |
    ⟨u, ⟨rfl, -⟩ | ⟨rfl, -⟩, ⟨-, rfl⟩ | ⟨-, i, -, he⟩⟩
  · exact ⟨[.refuse w], rfl, by simp⟩
  · exact exec_record (s := dropAction s) he
  · exact same rfl
  · exact same rfl
  · exact same rfl
  · exact same rfl
  · exact exec_record he
  · exact same rfl
  · exact exec_record (s := dropAction s) he

end Sys2Proof.Machine
end

section
/-! The statements of 10_state.md, 70_reset_and_hazards.md and 30_encoding.md about reset, STATUS
and acceptance. -/

namespace Sys2Proof.Proofs

open Sys2Proof Sys2Proof.Machine

/-- Settles O7: the fields of the reset state, and an idle turn of the sequencer. -/
theorem resetValues : Obligations.ResetValues :=
  ⟨mode_reset, rfl, rfl, rfl, rfl, rfl, rfl, rfl, rfl, rfl⟩

/-- Settles O8: the host's turn of a reset does not look at the state. -/
theorem externalResetFromAnyState : Obligations.ExternalResetFromAnyState := by
  intro s rest hh
  rw [step_reset hh, dropAction_eq hh]
  rfl

/-- Settles O9: each field of the word, bit by bit. -/
theorem statusWordLayout : Obligations.StatusWordLayout := by
  intro x
  have phase : (statusWord x).extractLsb' 12 2 = phaseCode x.phase := by
    refine BitVec.eq_of_getLsbD_eq fun i hi => ?_
    rw [BitVec.getLsbD_extractLsb', statusWord_getLsbD x (by omega)]
    interval_cases i <;> simp
  have st : (statusWord x).extractLsb' 9 2 = stCode x.st := by
    refine BitVec.eq_of_getLsbD_eq fun i hi => ?_
    rw [BitVec.getLsbD_extractLsb', statusWord_getLsbD x (by omega)]
    interval_cases i <;> simp
  refine ⟨?_, ?_, ?_, ?_, ?_, ?_⟩
  · refine BitVec.eq_of_getLsbD_eq fun i hi => ?_
    rw [BitVec.getLsbD_extractLsb', statusWord_getLsbD x (by omega)]
    interval_cases i <;> simp
  · rw [phase]
    cases x.phase <;> rfl
  · rw [statusWord_getLsbD x (by decide)]
    rfl
  · rw [st]
    cases x.st <;> rfl
  · rw [statusWord_getLsbD x (by decide)]
    rfl
  · refine BitVec.eq_of_getLsbD_eq fun i hi => ?_
    rw [BitVec.getLsbD_extractLsb', statusWord_getLsbD x (by omega)]
    simp [hi]

/-- Settles O10: the host's turn of a read does not look at BUSY. -/
theorem readStatusChangesNothing : Obligations.ReadStatusChangesNothing := by
  intro s rest hh
  rw [step_readStatus (by rw [hh]; rfl), dropAction_eq hh]
  rfl

/-- Settles O11: of the steps that leave BUSY = 1, an acceptance sets BUSY and no other changes
STATUS. -/
theorem statusHeldWhileBusy : Obligations.StatusHeldWhileBusy := by
  intro s t h hr hb
  rcases step_status h hr with e | ⟨-, e⟩ | ⟨-, e⟩ | ⟨-, hf, -⟩ | ⟨-, e⟩
  · rw [e] at hb ⊢
    rw [← hb]
  · exact e
  · rw [e] at hb
    cases hb
  · rw [hb] at hf
    cases hf
  · rw [e] at hb
    cases hb

/-- Settles O12: only a completion writes PHASE, with the table's value for its command. -/
theorem phaseTransitions : Obligations.PhaseTransitions := by
  intro s t h hr
  constructor
  · intro hb hf hok i hd
    rcases step_status h hr with e | ⟨hs, -⟩ | ⟨hs, -⟩ | ⟨-, -, -, j, hj, hph⟩ | ⟨-, e⟩
    · rw [e, hb] at hf
      cases hf
    · rw [hb] at hs
      cases hs
    · rw [hb] at hs
      cases hs
    · obtain rfl : j = i := Except.ok.inj (hj.symm.trans hd)
      rw [hph]
      cases j <;> cases s.status.phase <;> rfl
    · rw [e] at hok
      cases hok
  · intro hk
    rcases step_status h hr with e | ⟨-, e⟩ | ⟨-, e⟩ | ⟨hb, hf, hok, -⟩ | ⟨-, e⟩
    · rw [e]
    · rw [e]
    · rw [e]
    · simp [hb, hf, hok] at hk
    · rw [e]

/-- Settles O13: no micro-operation reads STATUS, and a completion reads and writes STATUS only. -/
theorem commandsDoNotReadStatusFields : Obligations.CommandsDoNotReadStatusFields :=
  fun _ _ _ _ hx h => exec_withStatus hx h

/-- Settles O16: the acceptance of each command, field by field. -/
theorem everyCommandAccepted : Obligations.EveryCommandAccepted := by
  intro i s hb
  rw [exec_idle_eq hb]
  cases i <;> rfl

/-- Settles O14: a legal word decodes and is accepted, an illegal one is refused. -/
theorem writeCmdAcceptsOrRefuses : Obligations.WriteCmdAcceptsOrRefuses := by
  refine fun s w rest hh => ⟨fun hb hl => ?_, fun hb hl => ?_, fun hb => step_writeCmd_busy hh hb⟩
  · obtain ⟨i, hd⟩ := decode_of_legalWord hl
    obtain rfl := eq_encode_of_decode hd
    rw [step_writeCmd_idle hh hb hd, exec_idle_eq (by exact hb), opField_encode, dataField_encode]
  · rw [step_writeCmd_illegal hh hb hl]
    simp [raiseIllegal, raiseStatus, State.record, ← hb]

/-- Settles O15: every ground makes the word illegal, and a refusal does not look at the ground. -/
theorem illegalWordRefused : Obligations.IllegalWordRefused := by
  intro s w rest hh hb hg
  have hl : legalWord w = false := by
    refine eq_false_of_ne_true fun hl => ?_
    obtain ⟨⟨hlo, hhi⟩, hrsv, hack, hdata⟩ := (legalWord_iff w).mp hl
    rcases hg with ho | ho | hr | ⟨ha, ho⟩ | ⟨hd, ho⟩
    · rw [ho] at hlo
      exact absurd hlo (by decide)
    · omega
    · exact hr hrsv
    · exact ho (hack ha)
    · exact ho (hdata hd)
  rw [step_writeCmd_illegal hh hb hl]
  rfl

/-- Settles O17: the host's turn and the sequencer's, by BUSY. -/
theorem stepRunsDecodedCommand : Obligations.StepRunsDecodedCommand := by
  refine ⟨fun s w rest i hh hb hd => step_writeCmd_idle hh hb hd, fun s i hb hd => ⟨?_, ?_, ?_⟩,
    fun s hb => ⟨?_, ?_, ?_⟩, fun s w i hd => ?_⟩
  · intro hh
    simpa [step, turn, hh] using sequencerTurn_busy hb hd
  · intro rest hh
    simpa [step, turn, hh, dropAction_eq hh] using
      sequencerTurn_busy (s := { s with host := rest }) hb hd
  · intro rest hh
    simpa [step, turn, hh, waitTurn, hb] using sequencerTurn_busy hb hd
  · intro hh
    simpa [step, turn, hh] using sequencerTurn_idle hb
  · intro rest hh
    simpa [step, turn, hh, dropAction_eq hh] using
      sequencerTurn_idle (s := { s with host := rest }) hb
  · intro rest hh
    simp [step, turn, hh, waitTurn, hb, dropAction_eq hh]
  · have hw : decode (tableWord 24 w) = .ok i := by
      cases hx : decode (tableWord 24 w) with
      | error e => simp [decodeTableWord, hx, Except.toOption] at hd
      | ok j => simpa [decodeTableWord, hx, Except.toOption] using hd
    exact step_writeCmd_idle (s := s.withFetchWord 24 w) rfl rfl hw

/-- Settles O46: a step but a reset leaves a pin in the mode it had or in one a micro-operation
writes, and none writes Unknown. -/
theorem onlyResetMakesUnknown : Obligations.OnlyResetMakesUnknown := by
  intro s t p h hr hu
  obtain ⟨hbusy, hidle⟩ := pinModesPersist s t p h hr
  by_cases hk : s.status.busy = false ∨ s.host.head? = some .readStatus
  · rw [← hidle hk, hu]
  · rw [not_or, Bool.not_eq_false] at hk
    obtain ⟨i, op, -, -, hm⟩ := hbusy hk.1 hk.2
    rcases hw : writtenLine i s op with _ | ⟨l, m⟩
    · simpa [hw, hu] using hm.symm
    · by_cases hp : pinOf i l = p
      · exact absurd (by simpa [hw, hu, hp] using hm.symm) (writtenLine_ne_unknown hw)
      · simpa [hw, hu, hp] using hm.symm

/-- Settles O47: no turn writes the limit. -/
theorem stretchLimitFixed : Obligations.StretchLimitFixed :=
  fun _ _ h => step_stretchLimit h

/-- Settles O48: a step records the host's event, or a micro-operation's and its command's end. -/
theorem recordOnlyGrows : Obligations.RecordOnlyGrows :=
  fun _ _ h => step_record h

end Sys2Proof.Proofs
end

section
/-! The next state of each micro-operation of the command in flight (40_line_driver R100 to R115),
and where the AWAITs of a sequence stand. -/

namespace Sys2Proof.Machine

/-! ### Moving on and completing -/

/-- A finished micro-operation with more to follow: UPC moves on. -/
theorem exec_more {i : Instr} {op : MicroOp} {s u : State} (hr : runs i op s)
    (hm : moreToRun i s) (hd : execMicro op s = .done u) :
    exec i s = .next { u with upc := s.upc + 1 } := by
  have hu : u.upc = s.upc := by simpa [hd] using (execMicro_frame op s).2.1
  have hmu : u.upc.toNat + 1 < (sequenceOf i).length := hu ▸ hm
  rw [exec_runs hr, hd]
  simp only [advance_more hmu, hu]

/-- The last micro-operation, finished: the command completes. -/
theorem exec_ends {i : Instr} {op : MicroOp} {s u : State} (hr : runs i op s)
    (hl : s.upc.toNat + 1 = (sequenceOf i).length) (hd : execMicro op s = .done u) :
    exec i s = .next (finishOf i { u with upc := s.upc + 1 }) := by
  have hu : u.upc = s.upc := by simpa [hd] using (execMicro_frame op s).2.1
  rw [exec_runs hr, hd]
  simp only [advance_last (hu ▸ hl), hu]

theorem runs_of_runsAt {i : Instr} {n : Nat} {op : MicroOp} {s : State} (h : runsAt i n s)
    (ho : (sequenceOf i)[n]? = some op) : runs i op s := by
  obtain ⟨hb, hc, hn⟩ := h
  exact ⟨hb, hc, hn ▸ ho⟩

/-- UPC as a value of its register. -/
theorem upc_of_runsAt {i : Instr} {n : Nat} {s : State} (h : runsAt i n s) :
    s.upc = BitVec.ofNat 7 n := by
  obtain ⟨-, -, rfl⟩ := h
  simp

/-! ### Line writes of the command in flight -/

theorem microRel_of_cur {i : Instr} {s : State} (hc : s.cur = encode i) (l : Line) :
    microRel l s = setModeOp (pinOf i l) .released s := by
  rw [microRel, hc, linePin_encode]

theorem microDrv_of_cur {i : Instr} {s : State} (hc : s.cur = encode i) (l : Line) :
    microDrv l s = setModeOp (pinOf i l) .drivenLow s := by
  rw [microDrv, hc, linePin_encode]

theorem microPutbit_of_cur {i : Instr} {s : State} (hc : s.cur = encode i) :
    microPutbit s = setModeOp i.sda (modeOfBit (currentBit s)) s := by
  rw [microPutbit, hc, linePin_encode, pinOf]

theorem microPutack_of_cur {i : Instr} {s : State} (hc : s.cur = encode i) :
    microPutack s = setModeOp i.sda (modeOfAck i.ackBit) s := by
  rw [microPutack, hc, linePin_encode, ackField_encode, pinOf]

/-! ### Polls -/

theorem limitReached_iff (l : StretchLimit) (k : Nat) :
    limitReached l k = true ↔ l = .bounded k := by
  cases l with
  | unbounded => simp [limitReached]
  | bounded n =>
    rw [limitReached, beq_iff_eq, StretchLimit.bounded.injEq]
    exact eq_comm

/-- A poll of the command in flight ends by the level of its SCL. -/
theorem microAwait_of_cur {i : Instr} {s : State} (hc : s.cur = encode i) :
    microAwait .scl s = pollResult (readLevel i.scl s)
      ((spendForRead i.scl s).record (.sample i.scl (readLevel i.scl s))) := by
  rw [microAwait, lineRead_of_cur hc, afterLineRead_of_cur hc, pinOf]

/-- A high poll ends the AWAIT (R106). -/
theorem exec_await_high {i : Instr} {s : State} (hr : runs i (.await .scl) s)
    (hv : readLevel i.scl s = .high) :
    exec i s = .next { spendForRead i.scl s with
      polls := 0, upc := s.upc + 1, events := s.events ++ [.sample i.scl .high] } := by
  have hx := microAwait_of_cur hr.2.1
  rw [hv] at hx
  rw [exec_moves hr rfl hx]
  simp [State.record]

/-- A low poll short of the limit holds the AWAIT (R106). -/
theorem exec_await_holds {i : Instr} {s : State} (hr : runs i (.await .scl) s)
    (hv : readLevel i.scl s = .low) (hl : s.stretchLimit ≠ .bounded (s.polls + 1)) :
    exec i s = .next { spendForRead i.scl s with
      polls := s.polls + 1, events := s.events ++ [.sample i.scl .low] } := by
  have hn : limitReached s.stretchLimit (s.polls + 1) = false :=
    eq_false_of_ne_true fun h => hl ((limitReached_iff _ _).mp h)
  rw [exec_runs hr, execMicro, microAwait_of_cur hr.2.1, hv]
  simp [pollResult, State.record, hn]

/-- The low poll that reaches the limit ends the command (60_exceptions R204). -/
theorem exec_await_limit {i : Instr} {s : State} (hr : runs i (.await .scl) s)
    (hv : readLevel i.scl s = .low) (hl : s.stretchLimit = .bounded (s.polls + 1)) :
    exec i s = .next { spendForRead i.scl s with
      polls := 0
      status := ⟨s.status.phase, false, .timeout, false, 0⟩
      events := s.events ++ [.sample i.scl .low] ++ [.abort .timeout] } := by
  have hn : limitReached s.stretchLimit (s.polls + 1) = true := (limitReached_iff _ _).mpr hl
  rw [exec_runs hr, execMicro, microAwait_of_cur hr.2.1, hv]
  simp [pollResult, State.record, hn, raiseTimeout, raiseStatus]

/-! ### A command that times out -/

/-- No micro-operation records the end of a command. -/
theorem abort_notMem_microEvents (i : Instr) (s : State) (op : MicroOp) (c : St) :
    .abort c ∉ microEvents i s op := by
  cases op <;> simp [microEvents]

/-- Indices of a command's AWAITs (41_bus_conditions R134, R141, 42_byte_transfer R161, R171). -/
def awaitsAt (i : Instr) (n : Nat) : Prop :=
  match i with
  | .init _ _ => False
  | .start _ _ => n = 2
  | .stop _ _ => n = 4
  | .write _ _ _ => n = 60 ∨ ∃ k, k < 8 ∧ n = 7 * k + 4
  | .read _ _ _ => n = 60 ∨ ∃ k, k < 8 ∧ n = 7 * k + 4

theorem await_index {i : Instr} {n : Nat} (h : (sequenceOf i)[n]? = some (.await .scl)) :
    awaitsAt i n := by
  have transfer : ∀ ops, everyEntry ops (fun n op => op != .await .scl ||
      decide (n = 60 ∨ n / 7 < 8 ∧ n = 7 * (n / 7) + 4)) = true →
      ops[n]? = some (.await .scl) → n = 60 ∨ ∃ k, k < 8 ∧ n = 7 * k + 4 := by
    intro ops key h
    have := everyEntry_get key h
    simp only [bne_self_eq_false, Bool.false_or, decide_eq_true_eq] at this
    exact this.imp_right fun hk => ⟨n / 7, hk⟩
  have short : ∀ ops m, everyEntry ops (fun n op => op != .await .scl || decide (n = m)) = true →
      ops[n]? = some (.await .scl) → n = m := by
    intro ops m key h
    simpa using everyEntry_get key h
  cases i with
  | init _ _ =>
    have key : everyEntry initSequence (fun _ op => op != .await .scl) = true := rfl
    exact absurd (everyEntry_get key h) (by simp)
  | start _ _ => exact short startSequence 2 rfl h
  | stop _ _ => exact short stopSequence 4 rfl h
  | write _ _ _ => exact transfer writeSequence rfl h
  | read _ _ _ => exact transfer readSequence rfl h

/-- A command's step that ends with ST = TIMEOUT or records the abort is the poll that reaches the
limit. -/
theorem exec_timeout {i : Instr} {s t : State} (h : exec i s = .next t)
    (ht : (t.status.busy = false ∧ t.status.st = .timeout) ∨
      ∃ es, t.events = s.events ++ es ∧ .abort .timeout ∈ es) :
    runs i (.await .scl) s ∧ readLevel i.scl s = .low ∧
      s.stretchLimit = .bounded (s.polls + 1) := by
  have no_abort : ∀ es, t.events = s.events ++ es → .abort .timeout ∉ es →
      t.status.busy = false ∧ t.status.st = .timeout := by
    intro es he hes
    refine ht.resolve_right ?_
    rintro ⟨es', he', hes'⟩
    exact hes (List.append_cancel_left (he.symm.trans he') ▸ hes')
  obtain ⟨-, rfl⟩ | ⟨op, hr, -⟩ := exec_next h
  · obtain ⟨-, -, -, -, -, hev⟩ := loadOf_frame i s
    have := no_abort [.accept (encode i)] (by rw [accept_events, hev]) (by simp)
    cases this.1
  · have hm := abort_notMem_microEvents i s op .timeout
    obtain ⟨-, -, hout⟩ := exec_outcome hr h
    cases hout with
    | moves hst _ _ _ _ he =>
      have := no_abort _ (he.trans (execMicro_events op hr.2.1)) hm
      rw [hst, hr.1] at this
      cases this.1
    | completes _ hok _ _ _ _ _ he =>
      obtain ⟨a, d, he⟩ := he
      rw [execMicro_events op hr.2.1, List.append_assoc] at he
      have := no_abort _ he (by simpa using hm)
      rw [hok] at this
      cases this.2
    | holds _ _ hst _ _ _ he =>
      have := no_abort _ he (by simp)
      rw [hst, hr.1] at this
      cases this.1
    | timesOut ha hv _ _ _ hl _ => exact ⟨ha ▸ hr, hv, (limitReached_iff _ _).mp hl⟩

/-! ### The releases of SCL -/

/-- Outside INIT a release of SCL is awaited, and a WAIT follows (R168, R178). -/
theorem await_after_rel {i : Instr} {n : Nat} (hi : ∀ p q, i ≠ .init p q)
    (h : (sequenceOf i)[n]? = some (.rel .scl)) :
    (sequenceOf i)[n + 1]? = some (.await .scl) ∧ (sequenceOf i)[n + 2]? = some .wait := by
  have check : ∀ ops : List MicroOp, everyEntry ops (fun n op => op != .rel .scl ||
      ops[n + 1]? == some (.await .scl) && ops[n + 2]? == some .wait) = true →
      ops[n]? = some (.rel .scl) → ops[n + 1]? = some (.await .scl) ∧ ops[n + 2]? = some .wait := by
    intro ops key h
    simpa using everyEntry_get key h
  cases i with
  | init p q => exact absurd rfl (hi p q)
  | start _ _ => exact check startSequence rfl h
  | stop _ _ => exact check stopSequence rfl h
  | write _ _ _ => exact check writeSequence rfl h
  | read _ _ _ => exact check readSequence rfl h

/-! ### The byte a READ assembles -/

/-- A sample doubles ACC, keeps 8 bits and adds the level (R114). -/
theorem shiftIn_eq (v : Byte) (x : Level) :
    shiftIn v x = BitVec.ofNat 8 (2 * v.toNat + if x = .high then 1 else 0) := by
  apply BitVec.eq_of_toNat_eq
  cases x with
  | low => simp [shiftIn, levelBit, shiftLeft_eq_double]
  | high =>
    have low := Nat.two_pow_add_eq_or_of_lt (i := 1) (b := 1) (by decide) (v.toNat % 128)
    have even : 2 * v.toNat % 256 = 2 ^ 1 * (v.toNat % 128) := by omega
    have one : (1 : Byte).toNat = 1 := rfl
    rw [shiftIn, levelBit, shiftLeft_eq_double, BitVec.toNat_or, BitVec.toNat_ofNat,
      BitVec.toNat_ofNat, one, even, ← low, if_pos rfl]
    omega

/-! ### PHASE after the commands that fix it (10_state R34) -/

theorem phaseAfterInit_eq (p : Phase) : phaseAfterInit p = .idle := by
  cases p <;> rfl

theorem phaseAfterStart_eq (p : Phase) : phaseAfterStart p = .started := by
  cases p <;> rfl

theorem phaseAfterStop_eq (p : Phase) : phaseAfterStop p = .idle := by
  cases p <;> rfl

end Sys2Proof.Machine
end

section
/-! The statements of 40_line_driver.md, and those about the completion of each command (10_state
R35). -/

namespace Sys2Proof.Proofs

open Sys2Proof Sys2Proof.Machine

/-- Settles O18: from the outcomes of a step of the command in flight. -/
theorem inFlightCommandAlwaysSteps : Obligations.InFlightCommandAlwaysSteps := by
  intro i op s hr
  obtain ⟨t, h⟩ := exec_runs_next hr
  obtain ⟨hcur, hlim, hhost, hreads⟩ := exec_frame hr h
  obtain ⟨-, -, hout⟩ := exec_outcome hr h
  refine ⟨t, h, hcur, hhost, hlim, hreads, ?_⟩
  cases hout with
  | moves hst hu hm => exact .inl ⟨hu, hst, hm⟩
  | completes hb hok _ hu hl =>
    exact .inr (.inl ⟨hu, by rw [hu, upc_succ_toNat (runs_inside hr), hl], hb, hok⟩)
  | holds ha _ hst hu hk => exact .inr (.inr (.inl ⟨ha, hu, hst, hk⟩))
  | timesOut ha _ hst hu => exact .inr (.inr (.inr ⟨ha, hu, by rw [hst], by rw [hst]⟩))

/-- Settles O19: the write of the command's own pin, and UPC's advance. -/
theorem releaseAndDriveSetOneMode : Obligations.ReleaseAndDriveSetOneMode := by
  refine fun i l s hm => ⟨fun hr => ?_, fun hr => ?_⟩
  · rw [exec_more hr hm rfl, microRel_of_cur hr.2.1]
    rfl
  · rw [exec_more hr hm rfl, microDrv_of_cur hr.2.1]
    rfl

/-- Settles O20: no sequence ends with a WAIT. -/
theorem waitOnlyRecords : Obligations.WaitOnlyRecords :=
  fun _ _ hr => exec_moves hr rfl rfl

/-- Settles O21: a poll by the level it reads. -/
theorem awaitPollAdvancesOrHolds : Obligations.AwaitPollAdvancesOrHolds :=
  fun _ _ hr => ⟨exec_await_high hr, exec_await_holds hr⟩

/-- Settles O22: the poll that reaches the limit times out, and no other step of a command does. -/
theorem timeoutExactlyOnNthLowRead : Obligations.TimeoutExactlyOnNthLowRead := by
  refine ⟨fun i s hr hv hl => exec_await_limit hr hv hl, fun i s t h ht => ?_⟩
  obtain ⟨hr, hv, hl⟩ := exec_timeout h ht
  refine ⟨hr, hv, hl, ?_⟩
  have := await_index hr.2.2
  cases i <;> exact this

/-- Settles O23: both stand inside the WRITE sequence. -/
theorem putbitAndShiftOfWrite : Obligations.PutbitAndShiftOfWrite := by
  refine fun sda scl d s => ⟨fun hr => ?_, fun hr => ?_⟩
  · rw [exec_moves hr rfl rfl, microPutbit_of_cur hr.2.1]
    rfl
  · rw [exec_moves hr rfl rfl, microShift, shiftLeft_eq_double]

/-- Settles O25: the sample is recorded and shifted into ACC. -/
theorem sampleBitOfRead : Obligations.SampleBitOfRead := by
  intro sda scl a s hr
  rw [exec_moves hr rfl rfl, microSampleBit, lineRead_of_cur hr.2.1, afterLineRead_of_cur hr.2.1,
    shiftIn_eq]
  simp only [State.record, pinOf, Instr.sda, spendForRead_events]
  rfl

/-- Settles O26: the write of SDA by the A bit of CUR. -/
theorem putackOfRead : Obligations.PutackOfRead := by
  intro sda scl a s hr
  rw [exec_moves hr rfl rfl, microPutack_of_cur hr.2.1]
  rfl

/-- Settles O27: the three driver modes. -/
theorem levelOfLine : Obligations.LevelOfLine := by
  refine fun p s => ⟨fun h => by simp [readLevel, h, levelOf],
    fun h => by simp [readLevel, h, levelOf], fun h v => ⟨v == .high, fun rest => ?_⟩⟩
  have hm : State.mode { s with draws := (v == .high) :: rest } p = .unknown := h
  rw [readLevel, hm]
  cases v <;> rfl

/-- Settles O28: the place of each AWAIT and each release of SCL, and the invariant at an AWAIT. -/
theorem awaitAlwaysFollowsRelease : Obligations.AwaitAlwaysFollowsRelease := by
  refine ⟨fun i n l h => ?_, fun i n hi h => await_after_rel hi h, fun s i l hi hr => ?_⟩
  · obtain rfl := await_on_scl h
    obtain ⟨m, rfl⟩ := Nat.exists_eq_add_one.mpr (await_index_pos h)
    exact ⟨rfl, Nat.succ_pos m, rel_before_await h⟩
  · obtain rfl := await_on_scl hr.2.2
    exact released_of_await hi hr

/-- Settles O29: each sequence is counted. -/
theorem sequenceCounts : Obligations.SequenceCounts :=
  fun _ _ _ _ => ⟨rfl, rfl, rfl, rfl, rfl⟩

/-- Settles O30: the two micro-operations of INIT. -/
theorem initReleasesBothAndCompletes : Obligations.InitReleasesBothAndCompletes := by
  refine fun sda scl s => ⟨fun h => ?_, fun h => ?_⟩
  · have hr := runs_of_runsAt h (op := .rel .sda) rfl
    have hm : moreToRun (.init sda scl) s := by
      rw [moreToRun, h.2.2]
      exact (by decide : 0 + 1 < 2)
    rw [exec_more hr hm rfl, microRel_of_cur hr.2.1, upc_of_runsAt h]
    rfl
  · have hr := runs_of_runsAt h (op := .rel .scl) rfl
    rw [exec_ends hr (by rw [h.2.2]; rfl) rfl, microRel_of_cur hr.2.1, upc_of_runsAt h]
    simp only [finishOf, finishInit, phaseAfterInit_eq]
    rfl

/-- Settles O31: the last micro-operations of START and STOP. -/
theorem startAndStopComplete : Obligations.StartAndStopComplete := by
  refine fun sda scl s => ⟨fun h => ?_, fun h => ?_⟩
  · have hr := runs_of_runsAt h (op := .drv .scl) rfl
    rw [exec_ends hr (by rw [h.2.2]; rfl) rfl, microDrv_of_cur hr.2.1, upc_of_runsAt h]
    simp only [finishOf, finishStart, phaseAfterStart_eq]
    rfl
  · have hr := runs_of_runsAt h (op := .rel .sda) rfl
    rw [exec_ends hr (by rw [h.2.2]; rfl) rfl, microRel_of_cur hr.2.1, upc_of_runsAt h]
    simp only [finishOf, finishStop, phaseAfterStop_eq]
    rfl

/-- Settles O32: the last micro-operation of WRITE. -/
theorem writeCompletes : Obligations.WriteCompletes := by
  intro sda scl d s h
  have hr := runs_of_runsAt h (op := .drv .scl) rfl
  rw [exec_ends hr (by rw [h.2.2]; rfl) rfl, microDrv_of_cur hr.2.1, upc_of_runsAt h]
  rfl

/-- Settles O33: the last micro-operation of READ. -/
theorem readCompletes : Obligations.ReadCompletes := by
  intro sda scl a s h
  have hr := runs_of_runsAt h (op := .rel .sda) rfl
  rw [exec_ends hr (by rw [h.2.2]; rfl) rfl, microRel_of_cur hr.2.1, upc_of_runsAt h]
  rfl

end Sys2Proof.Proofs
end

section
/-! The pins of a command in flight: what it has written before each index, and the conditions its
steps make on the wire (41_bus_conditions R130 to R146, 42_byte_transfer R161 to R172). -/

namespace Sys2Proof.Machine

/-! ### What a command has written -/

/-- The modes of SDA and SCL a whole sequence leaves on two pins (41_bus_conditions R146). -/
def modesAtEnd : Instr → PinMode × PinMode
  | .init _ _ => (.released, .released)
  | .start _ _ => (.drivenLow, .drivenLow)
  | .stop _ _ => (.released, .released)
  | .write _ _ _ => (.released, .drivenLow)
  | .read _ _ _ => (.released, .drivenLow)

theorem driversAt_end (i : Instr) :
    (driversAt i (sequenceOf i).length).sda = some (modesAtEnd i).1 ∧
    (driversAt i (sequenceOf i).length).scl = some (modesAtEnd i).2 := by
  cases i <;> exact ⟨rfl, rfl⟩

/-- The write a sequence ends with. -/
def lastMicroOp : Instr → MicroOp
  | .init _ _ => .rel .scl
  | .start _ _ => .drv .scl
  | .stop _ _ => .rel .sda
  | .write _ _ _ => .drv .scl
  | .read _ _ _ => .rel .sda

theorem eq_lastMicroOp {i : Instr} {n : Nat} {op : MicroOp} (h : (sequenceOf i)[n]? = some op)
    (hl : n + 1 = (sequenceOf i).length) : op = lastMicroOp i := by
  have last : (sequenceOf i)[(sequenceOf i).length - 1]? = some (lastMicroOp i) := by
    cases i <;> rfl
  rw [← hl, Nat.add_sub_cancel, h] at last
  exact Option.some.inj last

/-- SDA as a command has left it at the AWAIT of index n (60_exceptions R205). -/
def sdaAtAwait (i : Instr) (n : Nat) : PinMode :=
  match i with
  | .init _ _ => .released
  | .start _ _ => .released
  | .stop _ _ => .drivenLow
  | .write _ _ d => if n = 60 then .released else modeOfBit (d.getLsbD (7 - n / 7))
  | .read _ _ a => if n = 60 then modeOfAck a else .released

theorem driversAt_await {i : Instr} {n : Nat} (h : awaitsAt i n) :
    (driversAt i n).sda = some (sdaAtAwait i n) := by
  cases i with
  | init _ _ => exact h.elim
  | start _ _ =>
    obtain rfl : n = 2 := h
    rfl
  | stop _ _ =>
    obtain rfl : n = 4 := h
    rfl
  | write _ _ _ =>
    obtain rfl | ⟨k, hk, rfl⟩ := h
    · rfl
    · interval_cases k <;> rfl
  | read _ _ _ =>
    obtain rfl | ⟨k, hk, rfl⟩ := h
    · rfl
    · interval_cases k <;> rfl

/-- A micro-operation that writes SDA. -/
def writesSda : MicroOp → Bool
  | .rel l => l == .sda
  | .drv l => l == .sda
  | .await _ => false
  | .wait => false
  | .putbit => true
  | .shift => false
  | .sampleAck => false
  | .sampleBit => false
  | .putack => true

/-- The indices at which a command may change SDA with SCL not driven low: INIT 0, START 0 and 4,
and STOP 6 (41_bus_conditions R130). -/
def wireException (i : Instr) (n : Nat) : Prop :=
  match i with
  | .init _ _ => n = 0
  | .start _ _ => n = 0 ∨ n = 4
  | .stop _ _ => n = 6
  | .write _ _ _ => False
  | .read _ _ _ => False

/-- A write of SDA finds SCL driven low by the command, but at the excepted indices. -/
theorem scl_driven_at_write_of_sda {i : Instr} {n : Nat} {op : MicroOp}
    (h : (sequenceOf i)[n]? = some op) (hw : writesSda op = true) :
    (driversAt i n).scl = some .drivenLow ∨ wireException i n := by
  have check : ∀ c : Nat → Bool, everyEntry (sequenceOf i) (fun n op => !writesSda op ||
      (driversAt i n).scl == some .drivenLow || c n) = true →
      (driversAt i n).scl = some .drivenLow ∨ c n = true := by
    intro c key
    simpa [hw] using everyEntry_get key h
  cases i with
  | init _ _ => simpa [wireException] using check (fun n => n == 0) rfl
  | start _ _ => simpa [wireException] using check (fun n => n == 0 || n == 4) rfl
  | stop _ _ => simpa [wireException] using check (fun n => n == 6) rfl
  | write _ _ _ => simpa [wireException] using check (fun _ => false) rfl
  | read _ _ _ => simpa [wireException] using check (fun _ => false) rfl

/-! ### Pins after a step of the command in flight -/

/-- With two pins a micro-operation that does not write SDA leaves it. -/
theorem mode_sda_unwritten {i : Instr} {op : MicroOp} {s t : State} (hr : runs i op s)
    (h : exec i s = .next t) (hne : i.sda ≠ i.scl) (hw : writesSda op = false) :
    t.mode i.sda = s.mode i.sda := by
  have other : ∀ m, writtenLine i s op ≠ some (.sda, m) := by
    intro m hm
    cases op <;> cases hm <;> exact absurd hw (by decide)
  rw [exec_mode hr h]
  rcases hl : writtenLine i s op with _ | ⟨_ | _, m⟩
  · rfl
  · exact absurd hl (other m)
  · exact if_neg hne.symm

/-- A step that changes the mode of SDA finds SCL driven low, or is at an excepted index. -/
theorem scl_driven_at_change_of_sda {i : Instr} {op : MicroOp} {s t : State} (hi : s.Inv)
    (hr : runs i op s) (h : exec i s = .next t) (hne : i.sda ≠ i.scl)
    (hc : t.mode i.sda ≠ s.mode i.sda) :
    s.mode i.scl = .drivenLow ∨ wireException i s.upc.toNat := by
  have hw : writesSda op = true := by
    by_contra hw
    exact hc (mode_sda_unwritten hr h hne (eq_false_of_ne_true hw))
  refine (scl_driven_at_write_of_sda hr.2.2 hw).imp_left fun hd => ?_
  have hscl := (hi.inFlight_of_runs hr).sclDriver hne
  rwa [hd, agrees_some] at hscl

/-- At an excepted index SDA is written: driven low at START index 4, released at the others. -/
theorem mode_sda_at_exception {i : Instr} {op : MicroOp} {s t : State} (hr : runs i op s)
    (h : exec i s = .next t) (hx : wireException i s.upc.toNat) :
    (t.mode i.sda = .drivenLow ∧ i.opcode = 2 ∧ s.upc = 4) ∨
    (t.mode i.sda = .released ∧
      (i.opcode = 3 ∧ s.upc = 6 ∨ (i.opcode = 1 ∨ i.opcode = 2) ∧ s.upc = 0)) := by
  have upc : ∀ {n : BitVec 7}, s.upc.toNat = n.toNat → s.upc = n := BitVec.eq_of_toNat_eq
  have written : ∀ {l m}, writtenLine i s op = some (l, m) → pinOf i l = i.sda →
      t.mode i.sda = m := by
    intro l m hw hp
    rw [exec_mode hr h, hw]
    exact if_pos hp
  have ho := hr.2.2
  cases i with
  | init _ _ =>
    rw [show s.upc.toNat = 0 from hx] at ho
    cases ho
    exact .inr ⟨written rfl rfl, .inr ⟨.inl rfl, upc hx⟩⟩
  | start _ _ =>
    obtain hn | hn : s.upc.toNat = 0 ∨ s.upc.toNat = 4 := hx <;> rw [hn] at ho <;> cases ho
    · exact .inr ⟨written rfl rfl, .inr ⟨.inr rfl, upc hn⟩⟩
    · exact .inl ⟨written rfl rfl, rfl, upc hn⟩
  | stop _ _ =>
    rw [show s.upc.toNat = 6 from hx] at ho
    cases ho
    exact .inr ⟨written rfl rfl, .inl ⟨rfl, upc hx⟩⟩
  | write _ _ _ => exact hx.elim
  | read _ _ _ => exact hx.elim

/-! ### Conditions of a step on the wire -/

theorem levelsOf_pinMode (s : State) (p q : Pin) (draw : Pin → Bool) :
    levelsOf s.pinMode p q draw = (levelOf (s.mode p) (draw p), levelOf (s.mode q) (draw q)) := rfl

theorem isStartCondition_iff (a b : Levels) :
    isStartCondition a b = true ↔ a.1 = .high ∧ b.1 = .low ∧ a.2 = .high ∧ b.2 = .high := by
  simp [isStartCondition, and_assoc]

theorem isStopCondition_iff (a b : Levels) :
    isStopCondition a b = true ↔ a.1 = .low ∧ b.1 = .high ∧ a.2 = .high ∧ b.2 = .high := by
  simp [isStopCondition, and_assoc]

@[simp] theorem levelOf_drivenLow (d : Bool) : levelOf .drivenLow d = .low := rfl

/-- A condition under one draw is a change of the mode of SDA with SCL not driven low. -/
theorem change_of_condition {s t : State} {p q : Pin} {draw : Pin → Bool}
    (h : isStartCondition (levelsOf s.pinMode p q draw) (levelsOf t.pinMode p q draw) = true ∨
      isStopCondition (levelsOf s.pinMode p q draw) (levelsOf t.pinMode p q draw) = true) :
    t.mode p ≠ s.mode p ∧ s.mode q ≠ .drivenLow := by
  simp only [isStartCondition_iff, isStopCondition_iff, levelsOf_pinMode] at h
  obtain ⟨ha, hb, hq, -⟩ | ⟨ha, hb, hq, -⟩ := h <;>
    exact ⟨fun hm => by simp [hm, ha] at hb, fun hm => by simp [hm] at hq⟩

/-- Releasing SDA makes no START condition, where SDA was not Unknown (R132). -/
theorem no_start_of_release {s t : State} {p q : Pin} {draw : Pin → Bool}
    (hk : s.mode p ≠ .unknown) (hm : t.mode p = .released) :
    isStartCondition (levelsOf s.pinMode p q draw) (levelsOf t.pinMode p q draw) = false := by
  refine eq_false_of_ne_true fun h => ?_
  obtain ⟨hc, -⟩ := change_of_condition (.inl h)
  obtain ⟨ha, -⟩ := (isStartCondition_iff _ _).mp h
  rw [levelsOf_pinMode] at ha
  cases hs : s.mode p with
  | released => exact hc (hm.trans hs.symm)
  | drivenLow => simp [hs] at ha
  | unknown => exact hk hs

/-- Driving SDA low makes no STOP condition. -/
theorem no_stop_of_drive {s t : State} {p q : Pin} {draw : Pin → Bool}
    (hm : t.mode p = .drivenLow) :
    isStopCondition (levelsOf s.pinMode p q draw) (levelsOf t.pinMode p q draw) = false := by
  refine eq_false_of_ne_true fun h => ?_
  obtain ⟨-, hb, -⟩ := (isStopCondition_iff _ _).mp h
  simp [levelsOf_pinMode, hm] at hb

/-- A condition a command in flight makes with two pins is made at an excepted index. -/
theorem exception_of_condition {i : Instr} {op : MicroOp} {s t : State} {draw : Pin → Bool}
    (hi : s.Inv) (hr : runs i op s) (h : exec i s = .next t) (hne : i.sda ≠ i.scl)
    (hc : isStartCondition (levelsOf s.pinMode i.sda i.scl draw)
        (levelsOf t.pinMode i.sda i.scl draw) = true ∨
      isStopCondition (levelsOf s.pinMode i.sda i.scl draw)
        (levelsOf t.pinMode i.sda i.scl draw) = true) :
    wireException i s.upc.toNat := by
  obtain ⟨hsda, hscl⟩ := change_of_condition hc
  exact (scl_driven_at_change_of_sda hi hr h hne hsda).resolve_left hscl

/-! ### A step that runs the command in CUR -/

/-- With BUSY = 1, a step other than a reset or a read of STATUS runs the command CUR decodes to. -/
theorem step_runs {s t : State} {i : Instr} (h : step s = .next t) (hb : s.status.busy = true)
    (hd : decode s.cur = .ok i) (hr : s.host.head? ≠ some .reset)
    (hs : s.host.head? ≠ some .readStatus) :
    ∃ op l, runs i op { s with host := l } ∧ exec i { s with host := l } = .next t := by
  obtain ⟨j, op, l, hj, hrun, he⟩ := step_busy h hb hr hs
  obtain rfl : j = i := Except.ok.inj (hj.symm.trans hd)
  exact ⟨op, l, hrun, he⟩

/-- A step that ends a command is a step of the command. -/
theorem step_runs_of_ends {s t : State} {i : Instr} (h : step s = .next t)
    (hb : s.status.busy = true) (hd : decode s.cur = .ok i) (hr : s.host.head? ≠ some .reset)
    (ht : t.status.busy = false) :
    ∃ op l, runs i op { s with host := l } ∧ exec i { s with host := l } = .next t := by
  refine step_runs h hb hd hr fun hs => ?_
  rw [step_readStatus hs] at h
  cases h
  exact absurd (hb.symm.trans ht) (by decide)

end Sys2Proof.Machine
end

section
/-! The statements of 41_bus_conditions.md, 42_byte_transfer.md and 60_exceptions.md about the pins
of a command and the conditions on the wire. -/

namespace Sys2Proof.Proofs

open Sys2Proof Sys2Proof.Machine

/-- Settles O49: with two pins, the history at the end of the sequence; with one, its last write. -/
theorem pinModesAfterCompletion : Obligations.PinModesAfterCompletion := by
  intro s t i hi hb hd h hr ht hok
  obtain ⟨op, l', hrun, he⟩ := step_runs_of_ends h hb hd hr ht
  have hi' : State.Inv { s with host := l' } := hi.congr rfl rfl rfl rfl rfl rfl rfl
  have hlast : s.upc.toNat + 1 = (sequenceOf i).length := by
    obtain ⟨-, -, hout⟩ := exec_outcome hrun he
    cases hout with
    | moves hst => exact absurd (ht.symm.trans (hst ▸ hb)) (by decide)
    | completes _ _ _ _ hl => exact hl
    | holds _ _ hst => exact absurd (ht.symm.trans (hst ▸ hb)) (by decide)
    | timesOut _ _ hst => rw [hst] at hok; cases hok
  constructor
  · intro hne
    obtain ⟨hsda, hscl⟩ := drivers_after (hi'.inFlight_of_runs hrun) hrun he hne
    obtain ⟨hend_sda, hend_scl⟩ := driversAt_end i
    simp only [hlast, hend_sda, hend_scl, agrees_some] at hsda hscl
    rw [hsda, hscl]
    cases i <;> rfl
  · intro hone
    obtain rfl := eq_lastMicroOp hrun.2.2 hlast
    have written : ∀ {l m}, writtenLine i { s with host := l' } (lastMicroOp i) = some (l, m) →
        t.mode i.sda = m := by
      intro l m hw
      rw [exec_mode hrun he, hw]
      cases l
      · exact if_pos rfl
      · exact if_pos hone.symm
    cases i <;> exact written rfl

/-- Settles O50: a TIMEOUT writes no pin, so they are as the command has left them at its AWAIT. -/
theorem pinModesAfterTimeout : Obligations.PinModesAfterTimeout := by
  intro s t i hi hb hd h hr ht hto
  obtain ⟨op, l, hrun, he⟩ := step_runs_of_ends h hb hd hr ht
  have hi' : State.Inv { s with host := l } := hi.congr rfl rfl rfl rfl rfl rfl rfl
  obtain ⟨hawait, -, -⟩ := exec_timeout he (.inl ⟨ht, hto⟩)
  have hsame : ∀ p, t.mode p = s.mode p := exec_mode hawait he
  refine ⟨(hsame _).trans (released_of_await (s := { s with host := l }) hi' hawait), fun hne => ?_⟩
  have hsda := (hi'.inFlight_of_runs hawait).sdaDriver hne
  rw [driversAt_await (await_index hawait.2.2), agrees_some] at hsda
  have := (hsame i.sda).trans hsda
  cases i with
  | init _ _ => rfl
  | start _ _ | stop _ _ | write _ _ _ | read _ _ _ => exact this

/-- Settles O51: at index 7k + 1 stands the PUTBIT after k SHIFTs. -/
theorem writeSendsMostSignificantBitFirst : Obligations.WriteSendsMostSignificantBitFirst := by
  intro sda scl d k s hi hk hat
  have hr := runs_of_runsAt hat (((writeSequence_putbit_shift (7 * k + 1)).1).mpr ⟨k, hk, rfl⟩)
  obtain ⟨-, hn⟩ := shifts_at_putbit hr.2.2
  have hshifts : (driversAt (.write sda scl d) s.upc.toNat).shifts = k := by
    have := hat.2.2
    omega
  have hbit := putbit_level (hi.inFlight_of_runs hr) hr
  rw [hshifts] at hbit
  obtain ⟨t, ht⟩ := exec_runs_next hr
  refine ⟨hbit, t, ht, ?_⟩
  rw [exec_mode hr ht, ← show currentBit s = d.getLsbD (7 - k) from hbit]
  exact if_pos rfl

/-- Settles O52: the history has SCL driven low at every write of SDA that is not excepted. -/
theorem sdaChangesOnlyWhileSclLow : Obligations.SdaChangesOnlyWhileSclLow := by
  intro s t i hi hb hd hne h hr hc
  have hs : s.host.head? ≠ some .readStatus := by
    intro hs
    rw [step_readStatus hs] at h
    cases h
    exact hc rfl
  obtain ⟨op, l, hrun, he⟩ := step_runs h hb hd hr hs
  have hi' : State.Inv { s with host := l } := hi.congr rfl rfl rfl rfl rfl rfl rfl
  refine (scl_driven_at_change_of_sda hi' hrun he hne hc).imp_right fun hx => ?_
  cases i <;> exact hx

/-- Settles O53: index 4 drives SDA low and leaves SCL. -/
theorem startConditionExactly : Obligations.StartConditionExactly := by
  intro sda scl s t draw _ hne hat h
  have hr := runs_of_runsAt hat (op := .drv .sda) rfl
  have hsda : t.mode sda = .drivenLow := (exec_mode hr h sda).trans (if_pos rfl)
  have hscl : t.mode scl = s.mode scl := (exec_mode hr h scl).trans (if_neg hne)
  simp [isStartCondition_iff, levelsOf_pinMode, hsda, hscl]

/-- Settles O54: index 6 releases SDA, which the STOP has driven low, and leaves SCL. -/
theorem stopConditionExactly : Obligations.StopConditionExactly := by
  intro sda scl s t draw hi hne hat h
  have hr := runs_of_runsAt hat (op := .rel .sda) rfl
  have hlow : s.mode sda = .drivenLow := by
    have := (hi.inFlight_of_runs hr).sdaDriver hne
    rw [hat.2.2] at this
    exact (agrees_some _ _).mp this
  have hsda : t.mode sda = .released := (exec_mode hr h sda).trans (if_pos rfl)
  have hscl : t.mode scl = s.mode scl := (exec_mode hr h scl).trans (if_neg hne)
  cases hd : draw sda <;>
    simp [isStopCondition_iff, levelsOf_pinMode, hlow, hsda, hscl, levelOf, hd]

/-- Settles O55: WRITE and READ have no excepted index. -/
theorem transfersMakeNoCondition : Obligations.TransfersMakeNoCondition := by
  intro s t i op draw hi hne hop hr h
  have none : ¬ wireException i s.upc.toNat := by
    cases i with
    | write _ _ _ | read _ _ _ => exact id
    | init _ _ | start _ _ | stop _ _ => simp [Instr.opcode] at hop
  exact ⟨eq_false_of_ne_true fun hc => none (exception_of_condition hi hr h hne (.inl hc)),
    eq_false_of_ne_true fun hc => none (exception_of_condition hi hr h hne (.inr hc))⟩

/-- Settles O56: INIT only releases lines, and in the states named SCL is driven low before the
step. -/
theorem initMakesNoStart : Obligations.InitMakesNoStart := by
  intro sda scl s t op draw hr h
  have low : s.mode scl = .drivenLow →
      isStopCondition (levelsOf s.pinMode sda scl draw) (levelsOf t.pinMode sda scl draw) = false :=
    fun hm => eq_false_of_ne_true fun hc => (change_of_condition (.inr hc)).2 hm
  refine ⟨fun hk _ => ?_, fun _ _ hm => low hm, fun _ _ hm => low hm⟩
  refine eq_false_of_ne_true fun hc => ?_
  obtain ⟨hchange, -⟩ := change_of_condition (.inl hc)
  have hrel : t.mode sda = .released := by
    have written : ∀ l, writtenLine (.init sda scl) s op = some (l, .released) →
        t.mode sda = .released := by
      intro l hw
      have hm := exec_mode hr h sda
      rw [hw] at hm
      exact (ite_eq_or_eq _ _ _).elim hm.trans fun he => absurd (hm.trans he) hchange
    have ho := hr.2.2
    have hin : s.upc.toNat < 2 := runs_inside hr
    obtain hn | hn : s.upc.toNat = 0 ∨ s.upc.toNat = 1 := by omega
    · rw [hn] at ho
      cases ho
      exact written .sda rfl
    · rw [hn] at ho
      cases ho
      exact written .scl rfl
  rw [no_start_of_release hk hrel] at hc
  cases hc

/-- Settles O57: a condition is made at an excepted index, by the mode SDA is given there. -/
theorem onlyTheseStepsMakeConditions : Obligations.OnlyTheseStepsMakeConditions := by
  intro s t i op draw hi hne hk _ hr h
  refine ⟨fun hc => ?_, fun hc => ?_⟩
  · have hx := exception_of_condition hi hr h hne (.inl hc)
    obtain ⟨-, hat⟩ | ⟨hm, -⟩ := mode_sda_at_exception hr h hx
    · exact hat
    · rw [no_start_of_release hk hm] at hc
      cases hc
  · have hx := exception_of_condition hi hr h hne (.inr hc)
    obtain ⟨hchange, -⟩ := change_of_condition (.inr hc)
    obtain ⟨hm, -⟩ | ⟨hm, hat⟩ := mode_sda_at_exception hr h hx
    · rw [no_stop_of_drive hm] at hc
      cases hc
    · refine hat.imp_right fun ⟨hop, hu⟩ => ⟨hop, hu, ?_⟩
      cases hs : s.mode i.sda with
      | released => exact absurd (hm.trans hs.symm) hchange
      | drivenLow => rfl
      | unknown => exact absurd hs hk

end Sys2Proof.Proofs
end

section
/-! Stretched AWAITs: runs of low polls, and the poll that ends them (40_line_driver R106,
60_exceptions R204). -/

namespace Sys2Proof.Machine

/-! ### A run of low polls -/

/-- Low polls short of the limit hold the AWAIT, each counted and recorded. -/
theorem runSteps_low_polls {i : Instr} {s : State} (k : Nat) {ds : List Bool}
    (hr : runs i (.await .scl) s) (hm : s.mode i.scl = .released)
    (hh : leavesTurns s.host = true) (hd : s.draws = List.replicate k true ++ ds)
    (hl : ∀ n, s.stretchLimit = .bounded n → s.polls + k < n) :
    runSteps k s = .next (afterWatching i s k 0 0 ds) := by
  induction k generalizing ds with
  | zero =>
    have hd : s.draws = ds := hd
    rw [runSteps_zero, ← hd, afterWatching_zero]
  | succ k ih =>
    have held := ih (ds := true :: ds) (by rw [hd, List.replicate_succ']; simp)
      (fun n hn => by have := hl n hn; omega)
    rw [runSteps_add held]
    have below : limitReached s.stretchLimit (s.polls + k + 1) = false :=
      eq_false_of_ne_true fun h => by have := hl _ ((limitReached_iff _ _).mp h); omega
    have poll := exec_await_low (s := afterWatching i s k 0 0 (true :: ds)) hr hm rfl below
    rw [← step_of_leavesTurns (s := afterWatching i s k 0 0 (true :: ds)) hr hh] at poll
    rw [runSteps_next poll, runSteps_zero]
    simp [afterWatching, List.replicate_succ', Nat.add_assoc]

/-- A read of a Released pin when the environment's next answer is listed. -/
theorem read_released {p : Pin} {s : State} {d : Bool} {ds : List Bool}
    (hm : s.mode p = .released) (hd : s.draws = d :: ds) :
    readLevel p s = (if d then .low else .high) ∧ spendForRead p s = { s with draws := ds } := by
  refine ⟨by simp [readLevel, hm, levelOf, nextDraw, hd], ?_⟩
  simp [spendForRead_released hm, spendDraw, hd]

/-- A high poll in a turn the host leaves to the sequencer. -/
theorem step_await_high {i : Instr} {s : State} {ds : List Bool} (hr : runs i (.await .scl) s)
    (hm : s.mode i.scl = .released) (hh : leavesTurns s.host = true) (hd : s.draws = false :: ds) :
    step s = .next { s with
      polls := 0, upc := s.upc + 1, draws := ds
      events := s.events ++ [.sample i.scl .high] } := by
  obtain ⟨hv, hspend⟩ := read_released hm hd
  rw [step_of_leavesTurns hr hh, exec_await_high hr hv, hspend]

/-- The low poll that reaches the limit, in a turn the host leaves to the sequencer. -/
theorem step_await_limit {i : Instr} {s : State} {ds : List Bool} (hr : runs i (.await .scl) s)
    (hm : s.mode i.scl = .released) (hh : leavesTurns s.host = true) (hd : s.draws = true :: ds)
    (hl : s.stretchLimit = .bounded (s.polls + 1)) :
    step s = .next { s with
      polls := 0, draws := ds, status := ⟨s.status.phase, false, .timeout, false, 0⟩
      events := s.events ++ [.sample i.scl .low] ++ [.abort .timeout] } := by
  obtain ⟨hv, hspend⟩ := read_released hm hd
  rw [step_of_leavesTurns hr hh, exec_await_limit hr hv hl, hspend]

end Sys2Proof.Machine
end

section
/-! The statements about bounded clock stretching. -/

namespace Sys2Proof.Proofs

open Sys2Proof Sys2Proof.Machine

/-- Settles O37: k low polls hold the AWAIT, and the high one ends it. -/
theorem awaitAdvancesAfterStretch : Obligations.AwaitAdvancesAfterStretch := by
  intro k i s ds hi hh hr hk hd hl
  have hm := released_of_await hi hr
  have held := runSteps_low_polls k hr hm hh hd (fun n hn => by rw [hk]; have := hl n hn; omega)
  have ends := step_await_high (s := afterWatching i s k 0 0 (false :: ds)) hr hm hh rfl
  rw [runSteps_add held, runSteps_next ends, runSteps_zero]
  simp [afterWatching]

/-- Settles O39: all but the last of the low polls hold the AWAIT; the last reaches the limit. -/
theorem boundedAwaitTimesOut : Obligations.BoundedAwaitTimesOut := by
  intro n i s ds hi hh hr hk hlim hd
  have hm := released_of_await hi hr
  have hn : 1 ≤ n := by simpa [StretchLimit.valid, hlim] using hi.limitValid
  obtain ⟨k, rfl⟩ := Nat.exists_eq_add_one.mpr hn
  have held := runSteps_low_polls (ds := true :: ds) k hr hm hh
    (by rw [hd, List.replicate_succ']; simp)
    (fun n hn => by rw [hlim] at hn; cases hn; omega)
  have ends := step_await_limit (s := afterWatching i s k 0 0 (true :: ds)) hr hm hh rfl
    (by simp [afterWatching, hlim, hk])
  rw [runSteps_add held, runSteps_next ends, runSteps_zero]
  simp [afterWatching, List.replicate_succ']

end Sys2Proof.Proofs
end

section
/-! A command from acceptance to completion with no stretching: the state after a list of finished
micro-operations, the run that leads there, and the clocks of a byte transfer (42_byte_transfer
R161, R171, 70_reset R245). -/

namespace Sys2Proof.Machine

/-! ### Lists of finished micro-operations -/

/-- The state after a finished micro-operation that is not the last. -/
def afterOp (op : MicroOp) (s : State) : State := { (execMicro op s).state with upc := s.upc + 1 }

/-- The state after a list of them. -/
def afterOps : List MicroOp → State → State
  | [], s => s
  | op :: rest, s => afterOps rest (afterOp op s)

/-- Every AWAIT of the list reads high at its first poll. -/
def finishes : List MicroOp → State → Prop
  | [], _ => True
  | op :: rest, s => (∀ l, op = .await l → lineRead l s = .high) ∧ finishes rest (afterOp op s)

theorem afterOps_append (ops more : List MicroOp) (s : State) :
    afterOps (ops ++ more) s = afterOps more (afterOps ops s) := by
  induction ops generalizing s with
  | nil => rfl
  | cons op rest ih => exact ih (afterOp op s)

theorem finishes_append (ops more : List MicroOp) (s : State) :
    finishes (ops ++ more) s ↔ finishes ops s ∧ finishes more (afterOps ops s) := by
  induction ops generalizing s with
  | nil => simp [finishes, afterOps]
  | cons op rest ih => simp [finishes, afterOps, ih, and_assoc]

@[simp] theorem afterOp_upc (op : MicroOp) (s : State) : (afterOp op s).upc = s.upc + 1 := rfl

@[simp] theorem afterOp_cur (op : MicroOp) (s : State) : (afterOp op s).cur = s.cur :=
  (execMicro_frame op s).1

@[simp] theorem afterOp_status (op : MicroOp) (s : State) : (afterOp op s).status = s.status :=
  (execMicro_frame op s).2.2.1

@[simp] theorem afterOp_host (op : MicroOp) (s : State) : (afterOp op s).host = s.host :=
  (execMicro_frame op s).2.2.2.2.1

/-- An AWAIT that reads high is done, as every other micro-operation is. -/
theorem execMicro_of_finishes {op : MicroOp} {s : State}
    (h : ∀ l, op = .await l → lineRead l s = .high) :
    execMicro op s = .done (execMicro op s).state := by
  by_cases ha : ∃ l, op = .await l
  · obtain ⟨l, rfl⟩ := ha
    rw [execMicro, microAwait, h l rfl]
    rfl
  · exact execMicro_done op s fun l hl => ha ⟨l, hl⟩

/-- The rest of a command, with no stretching, runs to its completion. -/
theorem runSteps_ops {i : Instr} {ops : List MicroOp} {s : State} (hne : ops ≠ [])
    (hb : s.status.busy = true) (hc : s.cur = encode i) (hh : leavesTurns s.host = true)
    (hs : (sequenceOf i).drop s.upc.toNat = ops) (hf : finishes ops s) :
    runSteps ops.length s = .next (finishOf i (afterOps ops s)) := by
  induction ops generalizing s with
  | nil => exact absurd rfl hne
  | cons op rest ih =>
    obtain ⟨hop, hrest⟩ := hf
    have ho : (sequenceOf i)[s.upc.toNat]? = some op := by
      rw [← List.head?_drop, hs]
      rfl
    have hr : runs i op s := ⟨hb, hc, ho⟩
    have hlen : s.upc.toNat + (rest.length + 1) = (sequenceOf i).length := by
      have := congrArg List.length hs
      rw [List.length_drop, List.length_cons] at this
      have := runs_inside hr
      omega
    have hd := execMicro_of_finishes hop
    have hstep := step_of_leavesTurns hr hh
    by_cases hlast : rest = []
    · subst hlast
      rw [exec_ends hr hlen hd] at hstep
      exact runSteps_next hstep
    · have hpos := List.length_pos_iff.mpr hlast
      rw [exec_more hr (by unfold moreToRun; omega) hd] at hstep
      rw [List.length_cons, runSteps_next hstep]
      refine ih (s := afterOp op s) hlast ?_ ?_ ?_ ?_ hrest
      · rw [afterOp_status, hb]
      · rw [afterOp_cur, hc]
      · rw [afterOp_host, hh]
      · rw [afterOp_upc, upc_succ_toNat (runs_inside hr), ← List.tail_drop, hs]
        rfl

/-- The state right after the acceptance of `i` from the host's next action. -/
def accepted (i : Instr) (rest : List HostAction) (s : State) : State :=
  accept (encode i) (loadOf i { s with host := rest })

/-- A command issued to an idle machine runs, with no stretching, to its completion. -/
theorem runSteps_command {i : Instr} {s : State} {rest : List HostAction}
    (hb : s.status.busy = false) (hl : leavesTurns rest = true)
    (hh : s.host = .writeCmd (encode i) :: rest)
    (hf : finishes (sequenceOf i) (accepted i rest s)) :
    runSteps ((sequenceOf i).length + 1) s =
      .next (finishOf i (afterOps (sequenceOf i) (accepted i rest s))) := by
  have hstep : step s = .next (accepted i rest s) := by
    rw [step_writeCmd_idle hh hb (decode_encode i)]
    exact exec_idle hb
  have hhost : (accepted i rest s).host = rest := (loadOf_frame i { s with host := rest }).2.2.1
  rw [runSteps_next hstep]
  exact runSteps_ops (List.length_pos_iff.mp (length_sequenceOf_pos i)) rfl rfl
    (by rw [hhost, hl]) rfl hf

/-! ### What every list of micro-operations leaves -/

/-- A micro-operation that writes a pin. -/
def writesPin : MicroOp → Bool
  | .rel _ => true
  | .drv _ => true
  | .await _ => false
  | .wait => false
  | .putbit => true
  | .shift => false
  | .sampleAck => false
  | .sampleBit => false
  | .putack => true

/-- A micro-operation that reads a pin. -/
def readsPin : MicroOp → Bool
  | .rel _ => false
  | .drv _ => false
  | .await _ => true
  | .wait => false
  | .putbit => false
  | .shift => false
  | .sampleAck => true
  | .sampleBit => true
  | .putack => false

/-- The events a list of finished micro-operations records. -/
def opsEvents (i : Instr) : List MicroOp → State → List Event
  | [], _ => []
  | op :: rest, s => microEvents i s op ++ opsEvents i rest (afterOp op s)

theorem afterOps_events {i : Instr} (ops : List MicroOp) {s : State} (hc : s.cur = encode i) :
    (afterOps ops s).events = s.events ++ opsEvents i ops s := by
  induction ops generalizing s with
  | nil => simp [afterOps, opsEvents]
  | cons op rest ih =>
    have hev : (afterOp op s).events = s.events ++ microEvents i s op := execMicro_events op hc
    rw [afterOps, ih (by rw [afterOp_cur, hc]), hev, opsEvents, List.append_assoc]

/-- A Mode event for each write, a Sample for each read, a Wait for each WAIT (70_reset R245). -/
theorem opsEvents_counts (i : Instr) (ops : List MicroOp) (s : State) :
    (opsEvents i ops s).countP isModeEvent = ops.countP writesPin ∧
    (opsEvents i ops s).countP isSampleEvent = ops.countP readsPin ∧
    (opsEvents i ops s).countP isWaitEvent = ops.countP (· == .wait) := by
  induction ops generalizing s with
  | nil => exact ⟨rfl, rfl, rfl⟩
  | cons op rest ih =>
    obtain ⟨hmode, hsample, hwait⟩ := ih (afterOp op s)
    simp only [opsEvents, List.countP_append, List.countP_cons, hmode, hsample, hwait]
    cases op <;> simp [microEvents, isModeEvent, isSampleEvent, isWaitEvent, writesPin, readsPin,
      Nat.add_comm]

/-- STATUS, CUR, the host's list and pins the command does not name are untouched. -/
theorem afterOps_frame {i : Instr} (ops : List MicroOp) {s : State} (hc : s.cur = encode i) :
    (afterOps ops s).cur = s.cur ∧ (afterOps ops s).status = s.status ∧
    (afterOps ops s).host = s.host ∧
    (afterOps ops s).upc = s.upc + BitVec.ofNat 7 ops.length ∧
    ∀ p, p ≠ i.sda → p ≠ i.scl → (afterOps ops s).mode p = s.mode p := by
  induction ops generalizing s with
  | nil => exact ⟨rfl, rfl, rfl, by simp [afterOps], fun _ _ _ => rfl⟩
  | cons op rest ih =>
    obtain ⟨hcur, hst, hhost, hupc, hmode⟩ := ih (s := afterOp op s) (by rw [afterOp_cur, hc])
    refine ⟨hcur.trans (afterOp_cur op s), hst.trans (afterOp_status op s),
      hhost.trans (afterOp_host op s), ?_, fun p hsda hscl => ?_⟩
    · rw [afterOps, hupc, afterOp_upc, List.length_cons, BitVec.add_assoc, Nat.add_comm,
        BitVec.ofNat_add]
      rfl
    · refine (hmode p hsda hscl).trans ((execMicro_mode op p hc).trans ?_)
      rcases writtenLine i s op with _ | ⟨_ | _, m⟩
      · rfl
      · exact if_neg hsda.symm
      · exact if_neg hscl.symm

/-! ### One micro-operation, field by field -/

theorem afterOp_mode {i : Instr} {s : State} (hc : s.cur = encode i) (op : MicroOp) (p : Pin) :
    (afterOp op s).mode p =
      match writtenLine i s op with
      | some (l, m) => if pinOf i l = p then m else s.mode p
      | none => s.mode p :=
  execMicro_mode op p hc

/-- A read of a Released line takes the environment's next answer. -/
theorem lineRead_next {l : Line} {s : State} {d : Bool} {ds : List Bool}
    (hm : s.mode (linePin s.cur l) = .released) (hd : s.draws = d :: ds) :
    lineRead l s = (if d then .low else .high) ∧
    afterLineRead l s =
      { s with
        draws := ds
        events := s.events ++ [.sample (linePin s.cur l) (if d then .low else .high)] } := by
  obtain ⟨hv, hspend⟩ := read_released hm hd
  exact ⟨hv, by rw [afterLineRead, lineRead, hv, hspend]; rfl⟩

/-- What a transfer computes with is the same in two states. -/
structure SameData (s t : State) : Prop where
  draws : t.draws = s.draws
  drawCount : t.drawCount = s.drawCount
  acc : t.acc = s.acc
  acks : t.acks = s.acks
  shreg : t.shreg = s.shreg

theorem SameData.refl (s : State) : SameData s s := ⟨rfl, rfl, rfl, rfl, rfl⟩

theorem SameData.trans {s t u : State} (h : SameData s t) (k : SameData t u) : SameData s u where
  draws := k.draws.trans h.draws
  drawCount := k.drawCount.trans h.drawCount
  acc := k.acc.trans h.acc
  acks := k.acks.trans h.acks
  shreg := k.shreg.trans h.shreg

theorem SameData.withDraws {s t : State} (h : SameData s t) (ds : List Bool) :
    SameData { s with draws := ds } { t with draws := ds } :=
  ⟨rfl, h.drawCount, h.acc, h.acks, h.shreg⟩

/-- A write of a pin or a WAIT. -/
def isQuiet (op : MicroOp) : Bool := writesPin op || op == .wait

theorem sameData_afterOp {op : MicroOp} (h : isQuiet op = true) (s : State) :
    SameData s (afterOp op s) := by
  cases op with
  | rel l | drv l | wait | putbit | putack => exact ⟨rfl, rfl, rfl, rfl, rfl⟩
  | await l | shift | sampleAck | sampleBit => cases h

/-- Writes and WAITs finish, and compute nothing. -/
theorem quiet_run {ops : List MicroOp} (h : ops.all isQuiet = true) (s : State) :
    finishes ops s ∧ SameData s (afterOps ops s) := by
  induction ops generalizing s with
  | nil => exact ⟨trivial, .refl s⟩
  | cons op rest ih =>
    rw [List.all_cons, Bool.and_eq_true] at h
    obtain ⟨hop, hrest⟩ := h
    obtain ⟨hfin, hsame⟩ := ih hrest (afterOp op s)
    exact ⟨⟨fun l hl => absurd hop (by rw [hl]; exact Bool.false_ne_true), hfin⟩,
      (sameData_afterOp hop s).trans hsame⟩

/-- An AWAIT on a Released line that no device pulls ends at its first poll. -/
theorem await_run {s : State} {ds : List Bool} (hm : s.mode (linePin s.cur .scl) = .released)
    (hd : s.draws = false :: ds) :
    (∀ l, MicroOp.await .scl = .await l → lineRead l s = .high) ∧
    SameData { s with draws := ds } (afterOp (.await .scl) s) ∧
    ∀ p, (afterOp (.await .scl) s).mode p = s.mode p := by
  obtain ⟨hv, hread⟩ := lineRead_next hm hd
  have hafter : afterOp (.await .scl) s =
      { afterLineRead .scl s with polls := 0, upc := s.upc + 1 } := by
    rw [afterOp, execMicro, microAwait, hv]
    rfl
  rw [hafter, hread]
  exact ⟨fun l hl => by cases hl; exact hv, ⟨rfl, rfl, rfl, rfl, rfl⟩, fun _ => rfl⟩

theorem opsEvents_append (i : Instr) (ops more : List MicroOp) (s : State) :
    opsEvents i (ops ++ more) s = opsEvents i ops s ++ opsEvents i more (afterOps ops s) := by
  induction ops generalizing s with
  | nil => rfl
  | cons op rest ih => rw [List.cons_append, opsEvents, ih, opsEvents, afterOps, List.append_assoc]

/-- Writes and WAITs that leave SCL Released, an AWAIT of it that is not stretched, and writes and
WAITs after it: one answer is spent, on a high sample. -/
theorem awaited_run {i : Instr} {before after : List MicroOp} {s : State} {ds : List Bool}
    (hc : s.cur = encode i) (hb : before.all isQuiet = true) (ha : after.all isQuiet = true)
    (hm : (afterOps before s).mode i.scl = .released) (hd : s.draws = false :: ds) :
    finishes (before ++ .await .scl :: after) s ∧
    SameData { s with draws := ds } (afterOps (before ++ .await .scl :: after) s) ∧
    opsEvents i (before ++ .await .scl :: after) s =
      opsEvents i before s ++ .sample i.scl .high ::
        opsEvents i after (afterOp (.await .scl) (afterOps before s)) := by
  obtain ⟨hfin, hsame⟩ := quiet_run hb s
  obtain ⟨hcur, -⟩ := afterOps_frame before hc
  rw [finishes_append, afterOps_append, opsEvents_append]
  generalize afterOps before s = u at *
  obtain ⟨hv, hawait, -⟩ := await_run (s := u) (ds := ds)
    (by rw [hcur, hc, linePin_encode]; exact hm) (hsame.draws.trans hd)
  obtain ⟨hafter, hsame'⟩ := quiet_run ha (afterOp (.await .scl) u)
  have hlevel : readLevel i.scl u = .high := by
    rw [← hv .scl rfl, lineRead_of_cur (hcur.trans hc), pinOf]
  refine ⟨⟨hfin, hv, hafter⟩, (hsame.withDraws ds).trans (hawait.trans hsame'), ?_⟩
  rw [opsEvents, microEvents, pinOf, hlevel]
  rfl

/-! ### Clocks -/

/-- What the clocks of a byte transfer begin with: SCL low, one write of SDA, SCL released and
awaited. -/
def clockHead (op : MicroOp) : List MicroOp :=
  [.drv .scl, op, .wait, .rel .scl] ++ [.await .scl, .wait]

/-- The head of a clock that is not stretched spends one answer; it leaves SDA Released where it
releases it. -/
theorem clockHead_run {i : Instr} {op : MicroOp} {s : State} {ds : List Bool}
    (hc : s.cur = encode i) (hq : isQuiet op = true) (hd : s.draws = false :: ds) :
    finishes (clockHead op) s ∧
    SameData { s with draws := ds } (afterOps (clockHead op) s) ∧
    (op = .rel .sda → (afterOps (clockHead op) s).mode i.sda = .released) := by
  have quiet : [MicroOp.drv .scl, op, .wait, .rel .scl].all isQuiet = true := by
    rw [List.all_cons, List.all_cons, hq]
    rfl
  have hscl : (afterOps [.drv .scl, op, .wait, .rel .scl] s).mode i.scl = .released := by
    simp [afterOps, afterOp_mode (i := i), hc, writtenLine, pinOf]
  obtain ⟨hfin, hsame, -⟩ := awaited_run (after := [.wait]) hc quiet rfl hscl hd
  refine ⟨hfin, hsame, ?_⟩
  rintro rfl
  simp [clockHead, afterOps, afterOp_mode (i := i), hc, writtenLine, pinOf]

/-- A data clock of a WRITE spends one answer and shifts SHREG. -/
theorem writeBitSlot_run {i : Instr} {s : State} {ds : List Bool} (hc : s.cur = encode i)
    (hd : s.draws = false :: ds) :
    finishes writeBitSlot s ∧
    SameData { s with draws := ds, shreg := s.shreg <<< 1 } (afterOps writeBitSlot s) := by
  obtain ⟨hfin, hsame, -⟩ := clockHead_run (op := .putbit) hc rfl hd
  rw [show writeBitSlot = clockHead .putbit ++ [.shift] from rfl, finishes_append, afterOps_append]
  refine ⟨⟨hfin, by simp [finishes]⟩, ?_⟩
  generalize afterOps (clockHead .putbit) s = u at *
  exact ⟨hsame.draws, hsame.drawCount, hsame.acc, hsame.acks, congrArg shiftLeft hsame.shreg⟩

/-- The loop of a WRITE: one answer and one shift for each clock. -/
theorem writeBits_run {i : Instr} (n : Nat) {s : State} {ds : List Bool} (hc : s.cur = encode i)
    (hd : s.draws = List.replicate n false ++ ds) :
    finishes (repeatSlot writeBitSlot n) s ∧
    SameData { s with draws := ds, shreg := s.shreg <<< n }
      (afterOps (repeatSlot writeBitSlot n) s) := by
  induction n generalizing s with
  | zero => exact ⟨trivial, ⟨hd, rfl, rfl, rfl, by simp [repeatSlot, afterOps]⟩⟩
  | succ n ih =>
    obtain ⟨hfin, hslot⟩ := writeBitSlot_run hc hd
    obtain ⟨hcur, -⟩ := afterOps_frame writeBitSlot hc
    obtain ⟨hfins, hloop⟩ := ih (hcur.trans hc) hslot.draws
    rw [repeatSlot, finishes_append, afterOps_append]
    generalize afterOps writeBitSlot s = u at *
    generalize afterOps (repeatSlot writeBitSlot n) u = v at *
    refine ⟨⟨hfin, hfins⟩, hloop.draws, hloop.drawCount.trans hslot.drawCount,
      hloop.acc.trans hslot.acc, hloop.acks.trans hslot.acks, hloop.shreg.trans ?_⟩
    rw [hslot.shreg, Nat.add_comm n 1]
    exact (BitVec.shiftLeft_add _ _ _).symm

/-- ACC after a sample of a bit: a released line reads high for 1 (40_line_driver R114). -/
def pushBit (acc : Byte) (b : Bool) : Byte := shiftIn acc (if b then .high else .low)

/-- A data clock of a READ spends two answers and takes the bit of the second into ACC; a slave
sends 0 by pulling SDA. -/
theorem readBitSlot_run {i : Instr} {s : State} {b : Bool} {ds : List Bool} (hc : s.cur = encode i)
    (hd : s.draws = false :: (!b) :: ds) :
    finishes readBitSlot s ∧
    SameData { s with draws := ds, acc := pushBit s.acc b } (afterOps readBitSlot s) := by
  obtain ⟨hfin, hsame, hsda⟩ := clockHead_run (op := .rel .sda) hc rfl hd
  obtain ⟨hcur, -⟩ := afterOps_frame (clockHead (.rel .sda)) hc
  rw [show readBitSlot = clockHead (.rel .sda) ++ [.sampleBit] from rfl, finishes_append,
    afterOps_append]
  refine ⟨⟨hfin, by simp [finishes]⟩, ?_⟩
  generalize afterOps (clockHead (.rel .sda)) s = u at *
  obtain ⟨hv, hread⟩ := lineRead_next (l := .sda) (s := u)
    (by rw [hcur, hc, linePin_encode]; exact hsda rfl) hsame.draws
  have hacc : shiftIn u.acc (lineRead .sda u) = pushBit s.acc b := by
    rw [hv, hsame.acc]
    cases b <;> rfl
  rw [afterOps, afterOps, afterOp, execMicro, state_done, microSampleBit, hread, hacc]
  exact ⟨rfl, hsame.drawCount, rfl, hsame.acks, hsame.shreg⟩

/-- The loop of a READ: the bits come into ACC in their order. -/
theorem readBits_run {i : Instr} (bits : List Bool) {s : State} {ds : List Bool}
    (hc : s.cur = encode i) (hd : s.draws = bits.flatMap (fun b => [false, !b]) ++ ds) :
    finishes (repeatSlot readBitSlot bits.length) s ∧
    SameData { s with draws := ds, acc := bits.foldl pushBit s.acc }
      (afterOps (repeatSlot readBitSlot bits.length) s) := by
  induction bits generalizing s with
  | nil => exact ⟨trivial, ⟨hd, rfl, rfl, rfl, rfl⟩⟩
  | cons b bits ih =>
    obtain ⟨hfin, hslot⟩ := readBitSlot_run hc hd
    obtain ⟨hcur, -⟩ := afterOps_frame readBitSlot hc
    obtain ⟨hfins, hloop⟩ := ih (hcur.trans hc) hslot.draws
    rw [List.length_cons, repeatSlot, finishes_append, afterOps_append]
    generalize afterOps readBitSlot s = u at *
    generalize afterOps (repeatSlot readBitSlot bits.length) u = v at *
    refine ⟨⟨hfin, hfins⟩, hloop.draws, hloop.drawCount.trans hslot.drawCount,
      hloop.acc.trans ?_, hloop.acks.trans hslot.acks, hloop.shreg.trans hslot.shreg⟩
    rw [hslot.acc]
    rfl

/-- Eight bits, highest first, make their byte, whatever ACC held (42_byte_transfer R176). -/
theorem foldl_pushBit (v b : Byte) :
    [b.getLsbD 7, b.getLsbD 6, b.getLsbD 5, b.getLsbD 4, b.getLsbD 3, b.getLsbD 2, b.getLsbD 1,
      b.getLsbD 0].foldl pushBit v = b := by
  have bit : ∀ (acc : Byte) (x : Bool) (k : Nat) (hk : k < 8),
      (pushBit acc x)[k] = if k = 0 then x else acc[k - 1] := by
    intro acc x k hk
    cases x <;> interval_cases k <;> simp [pushBit, shiftIn, shiftLeft, levelBit]
  refine BitVec.eq_of_getLsbD_eq fun k hk => ?_
  interval_cases k <;> simp [bit]

/-- The ninth clock of a WRITE: the second answer is the acknowledge. -/
theorem writeAckSlot_run {i : Instr} {s : State} {pulled : Bool} {ds : List Bool}
    (hc : s.cur = encode i) (hd : s.draws = false :: pulled :: ds) :
    finishes writeAckSlot s ∧
    SameData { s with draws := ds, acks := pulled } (afterOps writeAckSlot s) ∧
    (afterOps writeAckSlot s).mode i.scl = .drivenLow ∧
    (i.sda ≠ i.scl → (afterOps writeAckSlot s).mode i.sda = .released) := by
  obtain ⟨hfin, hsame, hsda⟩ := clockHead_run (op := .rel .sda) hc rfl hd
  obtain ⟨hcur, -⟩ := afterOps_frame (clockHead (.rel .sda)) hc
  have hsda := hsda rfl
  rw [hc] at hcur
  rw [show writeAckSlot = clockHead (.rel .sda) ++ [.sampleAck, .drv .scl] from rfl,
    finishes_append, afterOps_append]
  generalize afterOps (clockHead (.rel .sda)) s = u at *
  refine ⟨⟨hfin, by simp [finishes]⟩, ?_, ?_, ?_⟩
  · obtain ⟨hv, hread⟩ := lineRead_next (l := .sda) (s := u)
      (by rw [hcur, linePin_encode]; exact hsda) hsame.draws
    have hack : ackOfLevel (lineRead .sda u) = pulled := by
      rw [hv]
      cases pulled <;> rfl
    refine SameData.trans ?_ (sameData_afterOp rfl _)
    rw [afterOp, execMicro, state_done, microSampleAck, hread, hack]
    exact ⟨rfl, hsame.drawCount, hsame.acc, rfl, hsame.shreg⟩
  · simp [afterOps, afterOp_mode (i := i), hcur, writtenLine, pinOf]
  · intro hne
    simp [afterOps, afterOp_mode (i := i), hcur, writtenLine, pinOf, hsda, Ne.symm hne]

/-- The ninth clock of a READ. -/
theorem readAckSlot_run {i : Instr} {s : State} {ds : List Bool}
    (hc : s.cur = encode i) (hd : s.draws = false :: ds) :
    finishes readAckSlot s ∧
    SameData { s with draws := ds } (afterOps readAckSlot s) ∧
    (afterOps readAckSlot s).mode i.sda = .released ∧
    (i.sda ≠ i.scl → (afterOps readAckSlot s).mode i.scl = .drivenLow) := by
  obtain ⟨hfin, hsame, -⟩ := clockHead_run (op := .putack) hc rfl hd
  obtain ⟨hcur, -⟩ := afterOps_frame (clockHead .putack) hc
  rw [show readAckSlot = clockHead .putack ++ [.drv .scl, .rel .sda] from rfl,
    finishes_append, afterOps_append]
  rw [hc] at hcur
  obtain ⟨hquiet, hsame'⟩ := quiet_run (ops := [.drv .scl, .rel .sda]) rfl
    (afterOps (clockHead .putack) s)
  refine ⟨⟨hfin, hquiet⟩, hsame.trans hsame', ?_, fun hne => ?_⟩
  · simp [afterOps, afterOp_mode (i := i), hcur, writtenLine, pinOf]
  · simp [afterOps, afterOp_mode (i := i), hcur, writtenLine, pinOf, hne]

/-! ### The five commands -/

/-- START, not stretched: its events in order; both lines end driven low (41_bus_conditions
R134). -/
theorem startSequence_run {i : Instr} {s : State} {ds : List Bool} (hc : s.cur = encode i)
    (hd : s.draws = false :: ds) :
    finishes startSequence s ∧ SameData { s with draws := ds } (afterOps startSequence s) ∧
    opsEvents i startSequence s = [.mode i.sda .released, .mode i.scl .released,
      .sample i.scl .high, .wait, .mode i.sda .drivenLow, .mode i.scl .drivenLow] ∧
    (afterOps startSequence s).mode i.sda = .drivenLow ∧
    (afterOps startSequence s).mode i.scl = .drivenLow := by
  have hscl : (afterOps [.rel .sda, .rel .scl] s).mode i.scl = .released := by
    simp [afterOps, afterOp_mode (i := i), hc, writtenLine, pinOf]
  obtain ⟨hfin, hsame, hev⟩ :=
    awaited_run (before := [.rel .sda, .rel .scl]) (after := [.wait, .drv .sda, .drv .scl]) hc rfl
      rfl hscl hd
  refine ⟨hfin, hsame, hev.trans rfl, ?_, ?_⟩ <;>
    simp [startSequence, afterOps, afterOp_mode (i := i), hc, writtenLine, pinOf]

/-- STOP, not stretched: its events in order, and both lines released (41_bus_conditions R141). -/
theorem stopSequence_run {i : Instr} {s : State} {ds : List Bool} (hc : s.cur = encode i)
    (hd : s.draws = false :: ds) :
    finishes stopSequence s ∧ SameData { s with draws := ds } (afterOps stopSequence s) ∧
    opsEvents i stopSequence s = [.mode i.scl .drivenLow, .mode i.sda .drivenLow, .wait,
      .mode i.scl .released, .sample i.scl .high, .wait, .mode i.sda .released] ∧
    (afterOps stopSequence s).mode i.sda = .released ∧
    (afterOps stopSequence s).mode i.scl = .released := by
  have hscl : (afterOps [.drv .scl, .drv .sda, .wait, .rel .scl] s).mode i.scl = .released := by
    simp [afterOps, afterOp_mode (i := i), hc, writtenLine, pinOf]
  obtain ⟨hfin, hsame, hev⟩ :=
    awaited_run (before := [.drv .scl, .drv .sda, .wait, .rel .scl]) (after := [.wait, .rel .sda])
      hc rfl rfl hscl hd
  refine ⟨hfin, hsame, hev.trans rfl, ?_, ?_⟩ <;>
    simp [stopSequence, afterOps, afterOp_mode (i := i), hc, writtenLine, pinOf]

/-- WRITE, not stretched: eight clocks shift SHREG out, and the ninth samples the acknowledge
(42_byte_transfer R161, R165). -/
theorem writeSequence_run {i : Instr} {s : State} {pulled : Bool} {ds : List Bool}
    (hc : s.cur = encode i) (hd : s.draws = List.replicate 9 false ++ pulled :: ds) :
    finishes writeSequence s ∧
    SameData { s with draws := ds, acks := pulled, shreg := 0 } (afterOps writeSequence s) ∧
    (afterOps writeSequence s).mode i.scl = .drivenLow ∧
    (i.sda ≠ i.scl → (afterOps writeSequence s).mode i.sda = .released) := by
  obtain ⟨hbits, hloop⟩ := writeBits_run 8 (ds := false :: pulled :: ds) hc hd
  obtain ⟨hcur, -⟩ := afterOps_frame (repeatSlot writeBitSlot 8) hc
  obtain ⟨hack, hninth, hscl, hsda⟩ := writeAckSlot_run (hcur.trans hc) hloop.draws
  rw [writeSequence, finishes_append, afterOps_append]
  generalize afterOps (repeatSlot writeBitSlot 8) s = u at *
  generalize afterOps writeAckSlot u = v at *
  refine ⟨⟨hbits, hack⟩, ⟨hninth.draws, hninth.drawCount.trans hloop.drawCount,
    hninth.acc.trans hloop.acc, hninth.acks, (hninth.shreg.trans hloop.shreg).trans ?_⟩, hscl, hsda⟩
  exact BitVec.shiftLeft_eq_zero (Nat.le_refl 8)

/-- READ, not stretched: eight clocks take the byte into ACC, and the ninth sends the acknowledge
(42_byte_transfer R171, R176). -/
theorem readSequence_run {i : Instr} {s : State} {b : Byte} {ds : List Bool}
    (hc : s.cur = encode i)
    (hd : s.draws = [false, !b.getLsbD 7, false, !b.getLsbD 6, false, !b.getLsbD 5, false,
      !b.getLsbD 4, false, !b.getLsbD 3, false, !b.getLsbD 2, false, !b.getLsbD 1, false,
      !b.getLsbD 0, false] ++ ds) :
    finishes readSequence s ∧
    SameData { s with draws := ds, acc := b } (afterOps readSequence s) ∧
    (afterOps readSequence s).mode i.sda = .released ∧
    (i.sda ≠ i.scl → (afterOps readSequence s).mode i.scl = .drivenLow) := by
  obtain ⟨hbits, hloop⟩ := readBits_run
    [b.getLsbD 7, b.getLsbD 6, b.getLsbD 5, b.getLsbD 4, b.getLsbD 3, b.getLsbD 2, b.getLsbD 1,
      b.getLsbD 0] (ds := false :: ds) hc hd
  rw [foldl_pushBit] at hloop
  change finishes (repeatSlot readBitSlot 8) s at hbits
  change SameData _ (afterOps (repeatSlot readBitSlot 8) s) at hloop
  obtain ⟨hcur, -⟩ := afterOps_frame (repeatSlot readBitSlot 8) hc
  obtain ⟨hack, hninth, hsda, hscl⟩ := readAckSlot_run (hcur.trans hc) hloop.draws
  rw [readSequence, finishes_append, afterOps_append]
  generalize afterOps (repeatSlot readBitSlot 8) s = u at *
  generalize afterOps readAckSlot u = v at *
  exact ⟨⟨hbits, hack⟩, ⟨hninth.draws, hninth.drawCount.trans hloop.drawCount,
    hninth.acc.trans hloop.acc, hninth.acks.trans hloop.acks, hninth.shreg.trans hloop.shreg⟩, hsda,
    hscl⟩

/-! ### From acceptance to completion -/

/-- A command issued to an idle machine, not stretched: the run, and what the state before its
completion keeps of the one before its acceptance. -/
theorem command_run {i : Instr} {s : State} {rest : List HostAction}
    (hb : s.status.busy = false) (hl : leavesTurns rest = true)
    (hh : s.host = .writeCmd (encode i) :: rest) {u : State}
    (hu : afterOps (sequenceOf i) (accepted i rest s) = u)
    (hf : finishes (sequenceOf i) (accepted i rest s)) :
    runSteps ((sequenceOf i).length + 1) s = .next (finishOf i u) ∧
    u.status.phase = s.status.phase ∧ u.host = rest ∧
    u.upc = BitVec.ofNat 7 (sequenceOf i).length ∧
    (∀ p, p ≠ i.sda → p ≠ i.scl → u.mode p = s.mode p) ∧
    u.events =
      s.events ++ .accept (encode i) :: opsEvents i (sequenceOf i) (accepted i rest s) := by
  obtain ⟨hpins, -, hhost, -, hst, hev⟩ := loadOf_frame i { s with host := rest }
  obtain ⟨-, hst', hhost', hupc, hmode⟩ :=
    afterOps_frame (sequenceOf i) (s := accepted i rest s) rfl
  have hev' := afterOps_events (sequenceOf i) (s := accepted i rest s) rfl
  rw [hu] at hst' hhost' hupc hmode hev'
  refine ⟨hu ▸ runSteps_command hb hl hh hf, ?_, hhost'.trans hhost, ?_, fun p hp hq => ?_, ?_⟩
  · rw [hst', accepted, accept_status, hst]
  · rw [hupc, accepted, accept_upc]
    exact BitVec.zero_add _
  · exact (hmode p hp hq).trans (mode_congr hpins p)
  · rw [hev', accepted, accept_events, hev, List.append_assoc]
    rfl

/-- The writes, reads and WAITs of the two transfers (70_reset R245). -/
theorem writeSequence_counts : writeSequence.countP writesPin = 28 ∧
    writeSequence.countP readsPin = 10 ∧ writeSequence.countP (· == .wait) = 18 :=
  ⟨rfl, rfl, rfl⟩

theorem readSequence_counts : readSequence.countP writesPin = 29 ∧
    readSequence.countP readsPin = 17 ∧ readSequence.countP (· == .wait) = 18 :=
  ⟨rfl, rfl, rfl⟩

/-- The events of a command from acceptance to completion, counted. -/
theorem command_events_counts (i : Instr) (s : State) (ack : Bool) (data : Byte) :
    let es := .accept (encode i) :: opsEvents i (sequenceOf i) s ++ [.complete .ok ack data]
    es.countP isModeEvent = (sequenceOf i).countP writesPin ∧
    es.countP isSampleEvent = (sequenceOf i).countP readsPin ∧
    es.countP isWaitEvent = (sequenceOf i).countP (· == .wait) := by
  obtain ⟨hmode, hsample, hwait⟩ := opsEvents_counts i (sequenceOf i) s
  simp [hmode, hsample, hwait, isModeEvent, isSampleEvent, isWaitEvent]

end Sys2Proof.Machine
end

section
/-! The statements about whole commands, from acceptance to completion. -/

namespace Sys2Proof.Proofs

open Sys2Proof Sys2Proof.Machine

/-- Settles O34: both sequences finish, with the events of their micro-operations. -/
theorem startAndStopRuns : Obligations.StartAndStopRuns := by
  refine fun sda scl s rest ds hb hl hd => ⟨fun hh => ?_, fun hh => ?_⟩
  · obtain ⟨hfin, hsame, hev, hsda, hscl⟩ := startSequence_run (i := .start sda scl)
      (s := accepted (.start sda scl) rest s) (ds := ds) rfl hd
    generalize hu : afterOps startSequence (accepted (.start sda scl) rest s) = u at *
    obtain ⟨hrun, -, hhost, hupc, -, hevents⟩ := command_run hb hl hh hu hfin
    refine ⟨_, hrun, ?_, hupc, hsame.draws, hhost, hsda, hscl, ?_⟩
    · exact congrArg (Status.mk · false .ok false 0) (phaseAfterStart_eq u.status.phase)
    · rw [finishOf, finishStart, complete_events, hevents]
      simp [sequenceOf, hev, Instr.sda, Instr.scl]
  · obtain ⟨hfin, hsame, hev, hsda, hscl⟩ := stopSequence_run (i := .stop sda scl)
      (s := accepted (.stop sda scl) rest s) (ds := ds) rfl hd
    generalize hu : afterOps stopSequence (accepted (.stop sda scl) rest s) = u at *
    obtain ⟨hrun, -, hhost, hupc, -, hevents⟩ := command_run hb hl hh hu hfin
    refine ⟨_, hrun, ?_, hupc, hsame.draws, hhost, hsda, hscl, ?_⟩
    · exact congrArg (Status.mk · false .ok false 0) (phaseAfterStop_eq u.status.phase)
    · rw [finishOf, finishStop, complete_events, hevents]
      simp [sequenceOf, hev, Instr.sda, Instr.scl]

/-- Settles O35: SHREG is shifted out over eight clocks, and the ninth samples the acknowledge. -/
theorem writeRunReportsAcknowledge : Obligations.WriteRunReportsAcknowledge := by
  intro sda scl d pulled s rest ds hb hl hh hd
  obtain ⟨hfin, hsame, hscl, hsda⟩ := writeSequence_run (i := .write sda scl d)
    (s := accepted (.write sda scl d) rest s) (pulled := pulled) (ds := ds) rfl hd
  generalize hu : afterOps writeSequence (accepted (.write sda scl d) rest s) = u at *
  obtain ⟨hrun, hph, hhost, hupc, hframe, hevents⟩ := command_run hb hl hh hu hfin
  obtain ⟨hmodes, hsamples, hwaits⟩ :=
    command_events_counts (.write sda scl d) (accepted (.write sda scl d) rest s) u.acks 0
  obtain ⟨hwrites, hreads, hdelays⟩ := writeSequence_counts
  refine ⟨_, hrun, ?_, hupc, hsame.shreg, hsame.acc, hhost, hsame.draws, hsame.drawCount, hscl,
    hsda, hframe, _, ?_, hmodes.trans hwrites, hsamples.trans hreads,
    hwaits.trans hdelays, ?_⟩
  · rw [finishOf, finishWrite, complete_status, hph, hsame.acks]
    rfl
  · rw [finishOf, finishWrite, complete_events, hevents, List.append_assoc]
  · rw [minDurationUs, hwaits.trans hdelays]

/-- Settles O36: the byte comes into ACC over eight clocks. -/
theorem readRunAssemblesByte : Obligations.ReadRunAssemblesByte := by
  intro sda scl a b s rest ds hb hl hh hd
  obtain ⟨hfin, hsame, hsda, hscl⟩ := readSequence_run (i := .read sda scl a)
    (s := accepted (.read sda scl a) rest s) (b := b) (ds := ds) rfl hd
  generalize hu : afterOps readSequence (accepted (.read sda scl a) rest s) = u at *
  obtain ⟨hrun, hph, hhost, hupc, hframe, hevents⟩ := command_run hb hl hh hu hfin
  obtain ⟨hmodes, hsamples, hwaits⟩ :=
    command_events_counts (.read sda scl a) (accepted (.read sda scl a) rest s) false u.acc
  obtain ⟨hwrites, hreads, hdelays⟩ := readSequence_counts
  refine ⟨_, hrun, ?_, hupc, hsame.acc, hsame.shreg, hhost, hsame.draws, hsame.drawCount, hsda,
    hscl, hframe, _, ?_, hmodes.trans hwrites, hsamples.trans hreads,
    hwaits.trans hdelays, ?_⟩
  · rw [finishOf, finishRead, complete_status, hph, hsame.acc]
    rfl
  · rw [finishOf, finishRead, complete_events, hevents, List.append_assoc]
  · rw [minDurationUs, hwaits.trans hdelays]

end Sys2Proof.Proofs
end
